-- ==== Sys2Proof/Word.lean ====
section
/-! DEFINITION. The word types of the LS-8 core: bytes and register numbers (spec 00_scope.md rules R5, R6). -/

namespace Sys2Proof

/-- An 8-bit value: a register, a memory cell, an address, an operand byte (R4, R6: everything is unsigned).
`+` and `-` on it are the spec's `+8` and `-8`, that is, modulo 256 (R7). -/
abbrev Byte := BitVec 8

/-- A register number, 0 to 7 (R11). -/
abbrev Reg := Fin 8

end Sys2Proof
end

