-- ==== Sys2Proof/Syntax.lean ====
section
/-! DEFINITION. The instructions of the LS-8 core, one constructor per row of the opcode table (spec 30_encoding.md
rules R50, R53, R56). -/

namespace Sys2Proof

/-- The thirteen instructions (R1, R56). An operand is one whole byte (R50, R53): a register operand is kept as the byte
it was fetched as, because a byte of 8 to 255 is a legal operand byte whose register index is checked only when the
instruction is about to access the register (R54, R75); a JEQ or JNE that is not taken accepts any byte. -/
inductive Instr where
  /-- ADD: `x[opa] <- (x[opa] + x[opb]) mod 256` (R81). -/
  | add (opa opb : Byte)
  /-- MUL: `x[opa] <- (x[opa] * x[opb]) mod 256` (R82). -/
  | mul (opa opb : Byte)
  /-- CMP: sets the flag from `x[opa]` and `x[opb]` (R83). -/
  | cmp (opa opb : Byte)
  /-- HLT: stops the core (R91). -/
  | hlt
  /-- LDI: `x[opa] <- imm` (R92). -/
  | ldi (opa imm : Byte)
  /-- PRN: outputs `x[opa]` (R93). -/
  | prn (opa : Byte)
  /-- PSH: pushes `x[opa]` (R101). -/
  | psh (opa : Byte)
  /-- POP: pops into `x[opa]` (R102). -/
  | pop (opa : Byte)
  /-- CALL: calls the subroutine whose address is in `x[opa]` (R111). -/
  | call (opa : Byte)
  /-- RET: returns from a subroutine (R112). -/
  | ret
  /-- JMP: jumps to the address in `x[opa]` (R113). -/
  | jmp (opa : Byte)
  /-- JEQ: jumps to the address in `x[opa]` if the flag is EQUAL (R114). -/
  | jeq (opa : Byte)
  /-- JNE: jumps to the address in `x[opa]` if the flag is not EQUAL (R115). -/
  | jne (opa : Byte)
  deriving DecidableEq, Repr

end Sys2Proof
end

