-- ==== Sys2Proof/WellFormed.lean ====
section
/-! DEFINITION. When an instruction is well formed: every register operand names a register (spec 30_encoding.md
rule R54; 70_reset_and_hazards.md rule R147, "use only register indices 0 to 7"). -/

namespace Sys2Proof

/-- The operand bytes of an instruction that are register indices (R53). The immediate of LDI is none (R55). -/
def Instr.registerOperands : Instr → List Byte
  | .add opa opb => [opa, opb]
  | .mul opa opb => [opa, opb]
  | .cmp opa opb => [opa, opb]
  | .hlt => []
  | .ldi opa _ => [opa]
  | .prn opa => [opa]
  | .psh opa => [opa]
  | .pop opa => [opa]
  | .call opa => [opa]
  | .ret => []
  | .jmp opa => [opa]
  | .jeq opa => [opa]
  | .jne opa => [opa]

/-- Every register operand is 0 to 7, the whole byte taken as a number (R54). An ill-formed instruction still decodes
and still has its meaning: REG_INDEX, or the fall-through of a conditional jump that is not taken (R124). -/
def Instr.wellFormed (i : Instr) : Bool :=
  i.registerOperands.all fun b => decide (b.toNat < 8)

end Sys2Proof
end

