-- ==== Sys2Proof/Decode.lean ====
section
/-! DEFINITION. From bytes to instructions and back (spec 30_encoding.md rules R50 to R60,
40_fetch_decode_dispatch.md rule R72). The opcode values stand once, in namespace `Opcode`, and both directions read
them there. -/

namespace Sys2Proof

/-! The opcode map (R56). UNVERIFIED: GOCA prints no numeric value; the spec takes these from general knowledge
(its decision D1), log entry 1. -/

/-- ADD, format F2 (R56). -/
abbrev Opcode.add : Byte := 0xA0#8
/-- MUL, format F2 (R56). -/
abbrev Opcode.mul : Byte := 0xA2#8
/-- CMP, format F2 (R56). -/
abbrev Opcode.cmp : Byte := 0xA7#8
/-- HLT, format F0 (R56). -/
abbrev Opcode.hlt : Byte := 0x01#8
/-- LDI, format F2 (R56). -/
abbrev Opcode.ldi : Byte := 0x82#8
/-- PRN, format F1 (R56). -/
abbrev Opcode.prn : Byte := 0x47#8
/-- PSH, format F1 (R56). -/
abbrev Opcode.psh : Byte := 0x45#8
/-- POP, format F1 (R56). -/
abbrev Opcode.pop : Byte := 0x46#8
/-- CALL, format F1 (R56). -/
abbrev Opcode.call : Byte := 0x50#8
/-- RET, format F0 (R56). -/
abbrev Opcode.ret : Byte := 0x11#8
/-- JMP, format F1 (R56). -/
abbrev Opcode.jmp : Byte := 0x54#8
/-- JEQ, format F1 (R56). -/
abbrev Opcode.jeq : Byte := 0x55#8
/-- JNE, format F1 (R56). -/
abbrev Opcode.jne : Byte := 0x56#8

/-- `operand_count = opcode >> 6`, the field `ir[7:6]` (R51, R72). -/
def operandCount (ir : Byte) : Nat := (ir >>> 6).toNat

/-- `((opcode >> 5) & 1) == 1`, the field `ir[5]`: the instruction is routed to the ALU (R51, R72). -/
def isAluOp (ir : Byte) : Bool := ((ir >>> 5) &&& 1#8) == 1#8

/-- The length of an instruction in bytes, known from its opcode byte alone: `1 + ir[7:6]` (R52). -/
def instructionLength (ir : Byte) : Nat := 1 + operandCount ir

/-- Why an opcode byte is no instruction (R58, R59). -/
inductive Illegal where
  /-- Bit 5 is clear and the dispatch table has no entry (R122). -/
  | unknownOpcode
  /-- Bit 5 is set and the byte is not ADD, MUL or CMP (R123). -/
  | unsupportedAluOp
  deriving DecidableEq, Repr

/-- The ALU's closed set of operations (R58, R80). -/
def decodeAlu (ir opa opb : Byte) : Except Illegal Instr :=
  if ir = Opcode.add then .ok (.add opa opb)
  else if ir = Opcode.mul then .ok (.mul opa opb)
  else if ir = Opcode.cmp then .ok (.cmp opa opb)
  else .error .unsupportedAluOp

/-- The fixed dispatch table of the ten handlers (R58). -/
def decodeHandler (ir opa opb : Byte) : Except Illegal Instr :=
  if ir = Opcode.hlt then .ok .hlt
  else if ir = Opcode.ldi then .ok (.ldi opa opb)
  else if ir = Opcode.prn then .ok (.prn opa)
  else if ir = Opcode.psh then .ok (.psh opa)
  else if ir = Opcode.pop then .ok (.pop opa)
  else if ir = Opcode.call then .ok (.call opa)
  else if ir = Opcode.ret then .ok .ret
  else if ir = Opcode.jmp then .ok (.jmp opa)
  else if ir = Opcode.jeq then .ok (.jeq opa)
  else if ir = Opcode.jne then .ok (.jne opa)
  else .error .unknownOpcode

/-- The decoder, on the three bytes every fetch reads (R58, R71, R72): first classified by bit 5, then looked up. The
opcode byte alone selects the instruction; a byte that is no operand of it is ignored (R53, R60). -/
def decode (ir opa opb : Byte) : Except Illegal Instr :=
  if isAluOp ir then decodeAlu ir opa opb else decodeHandler ir opa opb

/-- The decoder on bytes in memory order, the opcode first (R32, R50); a byte past the list's end is read as zero. -/
def decodeBytes (bs : List Byte) : Except Illegal Instr :=
  decode (bs.getD 0 0#8) (bs.getD 1 0#8) (bs.getD 2 0#8)

/-- The opcode byte of an instruction (R56). -/
def Instr.opcode : Instr → Byte
  | .add _ _ => Opcode.add
  | .mul _ _ => Opcode.mul
  | .cmp _ _ => Opcode.cmp
  | .hlt => Opcode.hlt
  | .ldi _ _ => Opcode.ldi
  | .prn _ => Opcode.prn
  | .psh _ => Opcode.psh
  | .pop _ => Opcode.pop
  | .call _ => Opcode.call
  | .ret => Opcode.ret
  | .jmp _ => Opcode.jmp
  | .jeq _ => Opcode.jeq
  | .jne _ => Opcode.jne

/-- The operand bytes of an instruction, in memory order (R50, R53). -/
def Instr.operands : Instr → List Byte
  | .add opa opb => [opa, opb]
  | .mul opa opb => [opa, opb]
  | .cmp opa opb => [opa, opb]
  | .hlt => []
  | .ldi opa imm => [opa, imm]
  | .prn opa => [opa]
  | .psh opa => [opa]
  | .pop opa => [opa]
  | .call opa => [opa]
  | .ret => []
  | .jmp opa => [opa]
  | .jeq opa => [opa]
  | .jne opa => [opa]

/-- The bytes of an instruction in memory order, the opcode at the lowest address (R32, R50). -/
def encode (i : Instr) : List Byte := i.opcode :: i.operands

/-- The bytes of a sequence of instructions laid out one after the other (R50, R64). -/
def encodeAll : List Instr → List Byte
  | [] => []
  | i :: is => encode i ++ encodeAll is

/-- The `n`-th byte of an instruction of `nbits` bits held in the number `w` as spec/opcode_table.json numbers them: the
opcode byte is bits 7 to 0, the next byte bits 15 to 8; bits above `nbits` are zero. -/
def tableByte (nbits w n : Nat) : Byte :=
  BitVec.ofNat 8 ((w % 2 ^ nbits) / 2 ^ (8 * n))

/-- The instruction the decoder reads from an opcode-table word; none where it refuses. -/
def decodeTableWord (nbits w : Nat) : Option Instr :=
  match decodeBytes [tableByte nbits w 0, tableByte nbits w 1, tableByte nbits w 2] with
  | .ok i => some i
  | .error _ => none

end Sys2Proof
end

