-- ==== Sys2Proof/Config.lean ====
section
/-! DEFINITION. The parameters of the LS-8 core and their values (spec 00_scope.md rule R4). No free value stands
here: the spec leaves no result open (93_implementation_defined.md, "Nothing in this hardware is `any value`"). -/

namespace Sys2Proof.Config

/-- SPREG: register 7 is the stack pointer (R4, R13). -/
abbrev spReg : Reg := 7

/-- SP_RESET (R4, R13, R28). -/
abbrev spReset : Byte := 0xF4#8

/-- PC_RESET (R4, R14, R28). -/
abbrev pcReset : Byte := 0x00#8

/-- REG_RESET, registers 0 to 6 (R4, R28). DESIGN CHOICE, unsafe: the spec's decision D6, log entry 3. -/
abbrev regReset : Byte := 0x00#8

/-- MEM_FILL: what a cell that nothing has written reads as (R4, R28). DESIGN CHOICE, unsafe: the spec's decision D7,
log entry 4. -/
abbrev memFill : Byte := 0x00#8

/-- MEMSIZE: the number of memory cells, at addresses 0 to 255 (R4, R26). -/
abbrev memSize : Nat := 256

/-- LOAD_BASE: the address of the first byte of the program image (R4, R142). -/
abbrev loadBase : Byte := 0x00#8

end Sys2Proof.Config
end

