-- ==== Sys2Proof/Machine/State.lean ====
section
/-! DEFINITION. The architectural state of the LS-8 core, all of it (spec 10_state.md rule R10), the reasons a step can
stop, and the state after reset (R28, R140). -/

namespace Sys2Proof.Machine

/-- The one condition code (R17): the three values of the spec; its bit encoding is not architectural. -/
inductive Flag where
  /-- The left value of the last CMP was the greater one, unsigned. -/
  | greater
  /-- The left value of the last CMP was the smaller one, unsigned. -/
  | less
  /-- The values of the last CMP were equal. -/
  | equal
  deriving DecidableEq, Repr

/-- The values of the `fault` register (R20). -/
inductive FaultCause where
  /-- NONE: no fatal error. -/
  | none
  /-- UNKNOWN_OPCODE (R122). -/
  | unknownOpcode
  /-- UNSUPPORTED_ALU_OP (R123). -/
  | unsupportedAluOp
  /-- REG_INDEX (R124). -/
  | regIndex
  deriving DecidableEq, Repr

/-- Why a step would stop outside the state: it has no constructor. A fatal error of this hardware is a next state, the
one the spec describes (`fault <- E`, R121), and every address exists (R33), so no step of the model ends in a
fault. Nobody raises one, and nothing unsafe rests on it. -/
inductive Fault where
  deriving DecidableEq, Repr

/-- Why the model gives no meaning. -/
inductive Refusal where
  /-- Raised by an arm of `exec` whose instruction has no meaning yet; no arm is such. Safe. -/
  | notModelled (mnemonic : String)
  /-- Raised by the load interface on an image of more than 256 bytes: "such an image is not loadable and no run exists
  for it" (R142). No step raises it. Safe. -/
  | imageTooLong
  deriving DecidableEq, Repr

/-- The memory array (R26) as its cells that hold something other than `Config.memFill`, by rising address. -/
abbrev Memory := List Host.Cell

/-- "The complete architectural state of the core is the following and nothing else" (R10). -/
structure State where
  /-- `x[0..7]`, the general registers (R11). -/
  regs : Vector Byte 8
  /-- The program counter, 8 bits (R14). -/
  pc : Byte
  /-- The condition flag (R17). -/
  fl : Flag
  /-- The run flag (R19). -/
  running : Bool
  /-- The fatal error recorded, if any (R20). -/
  fault : FaultCause
  /-- The 256 cells of memory (R26). -/
  mem : Memory
  /-- The values PRN has output, oldest first (R22). -/
  out : List Byte
  deriving DecidableEq, Repr

/-- The machine right after reset, before any load (R28, R140). The spec states pc, x[7] and running from its source; the
zeros of x[0..6] and of memory are its decisions D6 and D7 (log entries 3 and 4), the flag D5 (log entry 5). -/
def State.reset : State where
  regs := (Vector.replicate 8 Config.regReset).set Config.spReg.val Config.spReset
  pc := Config.pcReset
  fl := .greater
  running := true
  fault := .none
  mem := []
  out := []

end Sys2Proof.Machine
end

