-- ==== Sys2Proof/Machine/Ops.lean ====
section
/-! DEFINITION. The named operations over memory, registers and the other state that the instructions are written with
(spec 00_scope.md rule R7), raising a fatal error among them (60_exceptions.md rule R121). -/

namespace Sys2Proof.Machine

/-! ## Memory (20_memory.md rules R30 to R45) -/

/-- The canonical form: addresses strictly rising and below 256, and no cell listed that holds what an unlisted one reads
as. Equal memories are then equal lists. -/
abbrev Memory.wf (m : Memory) : Prop :=
  m.Pairwise (fun c d => c.1 < d.1) ∧ ∀ c ∈ m, c.1 < Config.memSize ∧ c.2 ≠ Config.memFill

/-- The value of the cell numbered `k`: the listed one, or `Config.memFill`. -/
def Memory.lookup : Memory → Nat → Byte
  | [], _ => Config.memFill
  | (k', v) :: rest, k => if k' = k then v else Memory.lookup rest k

/-- The cells other than the one numbered `k`. -/
def Memory.erase (m : Memory) (k : Nat) : Memory := m.filter fun c => c.1 ≠ k

/-- The cells with `(k, v)` put before the first one of a greater number. -/
def Memory.insert (k : Nat) (v : Byte) : Memory → Memory
  | [] => [(k, v)]
  | (k', v') :: rest => if k < k' then (k, v) :: (k', v') :: rest else (k', v') :: Memory.insert k v rest

/-- `MemRead(a, 1)` (R7): every 8-bit address is readable and a read changes nothing (R33, R35). -/
def Memory.read (m : Memory) (a : Byte) : Byte := m.lookup a.toNat

/-- `MemWrite(a, 1, v)` (R7): every 8-bit address is writable and a write changes one cell (R34, R35). -/
def Memory.write (m : Memory) (a v : Byte) : Memory :=
  if v = Config.memFill then m.erase a.toNat else Memory.insert a.toNat v (m.erase a.toNat)

/-- Write bytes to consecutive addresses, ascending from `a` (R142). -/
def Memory.writeAll (m : Memory) (a : Byte) : List Byte → Memory
  | [] => m
  | v :: vs => Memory.writeAll (m.write a v) (a + 1) vs

/-! ## Registers, program counter, output, stop states -/

/-- `x[r]` (R7, R11): no register is hard-wired. -/
def State.reg (s : State) (r : Reg) : Byte := s.regs[r.val]

/-- `x[r] <- v` (R7, R11). -/
def State.setReg (s : State) (r : Reg) (v : Byte) : State := { s with regs := s.regs.set r.val v }

/-- `pc <- target` (R7). -/
def State.jump (s : State) (target : Byte) : State := { s with pc := target }

/-- `pc <- ia +8 n`, the default advance by the instruction's length (R73); no instruction writes pc before this, so pc
still holds `ia`. -/
def State.advance (s : State) (n : Byte) : State := { s with pc := s.pc + n }

/-- `fl <- f` (R17). -/
def State.setFlag (s : State) (f : Flag) : State := { s with fl := f }

/-- `running <- false` (R19, R91). -/
def State.halt (s : State) : State := { s with running := false }

/-- `MemWrite(a, 1, v)` on the state's memory. -/
def State.store (s : State) (a v : Byte) : State := { s with mem := s.mem.write a v }

/-- `Output(v)`: `out <- out ++ [v]` (R7, R22); it never blocks and never fails (R93). -/
def State.output (s : State) (v : Byte) : State := { s with out := s.out ++ [v] }

/-- `raise E` (R121): "fault <- E, nothing else: x, pc, fl, running, mem, out all keep the values they had when the step
began". There is no handler, nothing is saved and nothing returns (R120, R127). -/
def State.raise (s : State) (e : FaultCause) : State := { s with fault := e }

/-- The core executes nothing: `running = false` or `fault != NONE` (R70, R126, R127). -/
def State.stopped (s : State) : Bool := !s.running || decide (s.fault ≠ .none)

/-! ## The stack (43_stack.md rule R100) -/

/-- The stack pointer, register 7 (R13). -/
def State.sp (s : State) : Byte := s.reg Config.spReg

/-- `x[7] <- x[7] -8 1` (R38, R101, R111). -/
def State.decSp (s : State) : State := s.setReg Config.spReg (s.sp - 1)

/-- `x[7] <- x[7] +8 1` (R38, R102, R112). -/
def State.incSp (s : State) : State := s.setReg Config.spReg (s.sp + 1)

/-- Write the stack cell `x[7]` addresses (R31: PSH and CALL, after the decrement). -/
def State.storeTop (s : State) (v : Byte) : State := s.store s.sp v

/-- Read the stack cell `x[7]` addresses (R31: POP and RET, before the increment). -/
def State.top (s : State) : Byte := s.mem.read s.sp

/-! ## Fetch (R71) and the codes of R20 -/

/-- The three bytes every step begins by reading, `ir`, `opa`, `opb`, at addresses modulo 256 (R71). -/
def State.fetch (s : State) : Byte × Byte × Byte :=
  (s.mem.read s.pc, s.mem.read (s.pc + 1), s.mem.read (s.pc + 2))

/-- The instruction at the program counter, or why there is none (R71, R72). -/
def State.fetchDecode (s : State) : Except Illegal Instr :=
  match s.fetch with
  | (ir, opa, opb) => decode ir opa opb

/-- The fatal error an illegal opcode raises (R58, R122, R123). -/
def causeOf : Illegal → FaultCause
  | .unknownOpcode => .unknownOpcode
  | .unsupportedAluOp => .unsupportedAluOp

/-- The numeric code of a fault value (R20): a label only. -/
def FaultCause.code : FaultCause → Nat
  | .none => 0
  | .unknownOpcode => 1
  | .unsupportedAluOp => 2
  | .regIndex => 3

end Sys2Proof.Machine
end

