-- ==== Sys2Proof/Machine/Flags.lean ====
section
/-! DEFINITION. The ALU's results and its one status output, the flag (spec 41_alu.md rules R80, R83, R84), and the tests
of the flag (44_control_transfer.md rules R114, R115). -/

namespace Sys2Proof.Machine

/-- The sum, exact, then its low 8 bits: no carry, no overflow, no trap (R81, R84). -/
def aluAdd (a b : Byte) : Byte := BitVec.ofNat 8 (a.toNat + b.toNat)

/-- The product, exact, then its low 8 bits: the high half is lost (R82, R84). -/
def aluMul (a b : Byte) : Byte := BitVec.ofNat 8 (a.toNat * b.toNat)

/-- EQUAL if equal, GREATER if left > right, else LESS, unsigned (R83, R84). -/
def aluCmp (a b : Byte) : Flag :=
  if a.toNat = b.toNat then .equal
  else if b.toNat < a.toNat then .greater
  else .less

/-- `fl = EQUAL`: JEQ jumps (R114). -/
def jeqTaken (f : Flag) : Bool := f == .equal

/-- `fl != EQUAL`, that is, GREATER or LESS: JNE jumps (R115). -/
def jneTaken (f : Flag) : Bool := f != .equal

end Sys2Proof.Machine
end

