-- ==== Sys2Proof/Machine/Operands.lean ====
section
/-! DEFINITION. The operand forms: the register index (spec 30_encoding.md rule R54); the immediate needs no form of its
own, it is the byte as it is (R55). -/

namespace Sys2Proof.Machine

/-- The register an operand byte names: the whole byte, 0 to 7; none for 8 to 255, with no reduction modulo 8 and no bit
ignored (R54). -/
def regIndex (b : Byte) : Option Reg :=
  if h : b.toNat < 8 then some ⟨b.toNat, h⟩ else none

/-- The operand byte that names register `r` (R54). -/
def regByte (r : Reg) : Byte := BitVec.ofNat 8 r.val

/-- `if opa > 7: raise REG_INDEX`, then the effect (R75: the check comes before any read or write of state). -/
def withReg (opa : Byte) (s : State) (effect : Reg → State) : Host.Outcome State Fault Refusal :=
  match regIndex opa with
  | some a => .next (effect a)
  | none => .next (s.raise .regIndex)

/-- `if opa > 7 or opb > 7: raise REG_INDEX`, then the effect (R75, R81 to R83). -/
def withRegs (opa opb : Byte) (s : State) (effect : Reg → Reg → State) : Host.Outcome State Fault Refusal :=
  match regIndex opa, regIndex opb with
  | some a, some b => .next (effect a b)
  | _, _ => .next (s.raise .regIndex)

end Sys2Proof.Machine
end

