-- ==== Sys2Proof/Machine/Alu.lean ====
section
/-! DEFINITION. The ALU instructions ADD, MUL, CMP (spec 41_alu.md). -/

namespace Sys2Proof.Machine

/-- What ADD writes once its register indices are checked (R81). -/
def addEffect (a b : Reg) (s : State) : State :=
  (s.setReg a (aluAdd (s.reg a) (s.reg b))).advance 3

/-- What MUL writes once its register indices are checked (R82). -/
def mulEffect (a b : Reg) (s : State) : State :=
  (s.setReg a (aluMul (s.reg a) (s.reg b))).advance 3

/-- What CMP writes once its register indices are checked (R83). -/
def cmpEffect (a b : Reg) (s : State) : State :=
  (s.setFlag (aluCmp (s.reg a) (s.reg b))).advance 3

/-- ADD (R81). -/
def execAdd (opa opb : Byte) (s : State) : Host.Outcome State Fault Refusal :=
  withRegs opa opb s fun a b => addEffect a b s

/-- MUL (R82). -/
def execMul (opa opb : Byte) (s : State) : Host.Outcome State Fault Refusal :=
  withRegs opa opb s fun a b => mulEffect a b s

/-- CMP (R83). -/
def execCmp (opa opb : Byte) (s : State) : Host.Outcome State Fault Refusal :=
  withRegs opa opb s fun a b => cmpEffect a b s

end Sys2Proof.Machine
end

