-- ==== Sys2Proof/Machine/Control.lean ====
section
/-! DEFINITION. CALL, RET, JMP, JEQ, JNE (spec 44_control_transfer.md). -/

namespace Sys2Proof.Machine

/-- What CALL writes once its register index is checked (R111): the return address `ia +8 2` is pushed; the target is read
after the decrement, so CALL R7 goes to the decremented stack pointer (R111 b). -/
def callEffect (a : Reg) (s : State) : State :=
  (s.decSp.storeTop (s.pc + 2)).jump (s.decSp.reg a)

/-- What RET writes (R112): the byte read before the increment is the target. -/
def retEffect (s : State) : State := s.incSp.jump s.top

/-- A taken jump once its register index is checked: `pc <- x[opa]` (R113 to R115). -/
def jumpEffect (a : Reg) (s : State) : State := s.jump (s.reg a)

/-- A conditional jump that is not taken: `pc <- ia +8 2` (R114, R115). -/
def fallThrough (s : State) : State := s.advance 2

/-- CALL (R111). -/
def execCall (opa : Byte) (s : State) : Host.Outcome State Fault Refusal :=
  withReg opa s fun a => callEffect a s

/-- RET (R112). -/
def execRet (s : State) : Host.Outcome State Fault Refusal :=
  .next (retEffect s)

/-- JMP (R113). -/
def execJmp (opa : Byte) (s : State) : Host.Outcome State Fault Refusal :=
  withReg opa s fun a => jumpEffect a s

/-- JEQ (R114): the register index is checked on the taken path only. -/
def execJeq (opa : Byte) (s : State) : Host.Outcome State Fault Refusal :=
  if jeqTaken s.fl then withReg opa s fun a => jumpEffect a s else .next (fallThrough s)

/-- JNE (R115): the register index is checked on the taken path only. -/
def execJne (opa : Byte) (s : State) : Host.Outcome State Fault Refusal :=
  if jneTaken s.fl then withReg opa s fun a => jumpEffect a s else .next (fallThrough s)

end Sys2Proof.Machine
end

