-- ==== Sys2Proof/Machine/Stack.lean ====
section
/-! DEFINITION. PSH, POP (spec 43_stack.md). -/

namespace Sys2Proof.Machine

/-- What PSH writes once its register index is checked (R101): `x[7]` is decremented, and only then is `x[opa]` read and
stored, so PSH R7 pushes the decremented stack pointer (R103 a). -/
def pshEffect (a : Reg) (s : State) : State :=
  (s.decSp.storeTop (s.decSp.reg a)).advance 2

/-- What POP writes once its register index is checked (R102): the register is written, and only then is `x[7]`
incremented, so POP R7 leaves the popped value plus one (R104 a). -/
def popEffect (a : Reg) (s : State) : State :=
  (s.setReg a s.top).incSp.advance 2

/-- PSH (R101). -/
def execPsh (opa : Byte) (s : State) : Host.Outcome State Fault Refusal :=
  withReg opa s fun a => pshEffect a s

/-- POP (R102). -/
def execPop (opa : Byte) (s : State) : Host.Outcome State Fault Refusal :=
  withReg opa s fun a => popEffect a s

end Sys2Proof.Machine
end

