-- ==== Sys2Proof/Machine/System.lean ====
section
/-! DEFINITION. HLT, LDI, PRN (spec 42_system_and_move.md). -/

namespace Sys2Proof.Machine

/-- What HLT writes: `running <- false`, and pc is left at the byte after it (R91). -/
def hltEffect (s : State) : State := s.halt.advance 1

/-- What LDI writes once its register index is checked (R92). -/
def ldiEffect (a : Reg) (imm : Byte) (s : State) : State := (s.setReg a imm).advance 3

/-- What PRN writes once its register index is checked (R93). -/
def prnEffect (a : Reg) (s : State) : State := (s.output (s.reg a)).advance 2

/-- HLT (R91). -/
def execHlt (s : State) : Host.Outcome State Fault Refusal :=
  .next (hltEffect s)

/-- LDI (R92). -/
def execLdi (opa imm : Byte) (s : State) : Host.Outcome State Fault Refusal :=
  withReg opa s fun a => ldiEffect a imm s

/-- PRN (R93). -/
def execPrn (opa : Byte) (s : State) : Host.Outcome State Fault Refusal :=
  withReg opa s fun a => prnEffect a s

end Sys2Proof.Machine
end

