-- ==== Sys2Proof/Machine/Dispatch.lean ====
section
/-! DEFINITION. One arm per instruction (spec 40_fetch_decode_dispatch.md rules R72, R77). -/

namespace Sys2Proof.Machine

/-- What an instruction does in a state whose pc is the instruction's address `ia` (R77). -/
def exec (i : Instr) (s : State) : Host.Outcome State Fault Refusal :=
  match i with
  -- 41_alu.md
  | .add opa opb => Sys2Proof.Machine.execAdd opa opb s
  | .mul opa opb => Sys2Proof.Machine.execMul opa opb s
  | .cmp opa opb => Sys2Proof.Machine.execCmp opa opb s
  -- 42_system_and_move.md
  | .hlt => Sys2Proof.Machine.execHlt s
  | .ldi opa imm => Sys2Proof.Machine.execLdi opa imm s
  | .prn opa => Sys2Proof.Machine.execPrn opa s
  -- 43_stack.md
  | .psh opa => Sys2Proof.Machine.execPsh opa s
  | .pop opa => Sys2Proof.Machine.execPop opa s
  -- 44_control_transfer.md
  | .call opa => Sys2Proof.Machine.execCall opa s
  | .ret => Sys2Proof.Machine.execRet s
  | .jmp opa => Sys2Proof.Machine.execJmp opa s
  | .jeq opa => Sys2Proof.Machine.execJeq opa s
  | .jne opa => Sys2Proof.Machine.execJne opa s

end Sys2Proof.Machine
end

