-- ==== Sys2Proof/Machine/Step.lean ====
section
/-! DEFINITION. One step of the core (spec 40_fetch_decode_dispatch.md rules R70 to R76), and how a test places an
instruction where the next step fetches it. -/

namespace Sys2Proof.Machine

/-- One step (R70, R77). While the core runs it fetches three bytes at pc, decodes them and executes the instruction, or
raises the error of an illegal opcode (R122, R123). "When running = false or fault != NONE there is no step: the
state stays as it is until reset" (R70): a stopped core answers the same state. DESIGN CHOICE, log entry 9. -/
def step (s : State) : Host.Outcome State Fault Refusal :=
  if s.stopped then .next s
  else
    match s.fetchDecode with
    | .ok i => exec i s
    | .error e => .next (s.raise (causeOf e))

/-- `s` with the instruction of `nbits` bits in `w` (bits above `nbits` zero, three bytes in all, the longest
instruction) stored at pc, and the core running and not faulted, so that the next step fetches and runs it
(log entry 12). In the state after reset only memory changes. -/
def State.withFetchWord (s : State) (nbits w : Nat) : State :=
  { s with
    running := true
    fault := .none
    mem := s.mem.writeAll s.pc [tableByte nbits w 0, tableByte nbits w 1, tableByte nbits w 2] }

end Sys2Proof.Machine
end

