-- ==== Sys2Proof/Laws/PerInstr.lean ====
section
/-! SUPPORT. Families of statements made per instruction. -/

namespace Sys2Proof.Laws

/-- The top two bits of an instruction's opcode count its operand bytes, and bit 5 says whether it is one of the three ALU
instructions (R50 to R52, R57). -/
def EncodingShape.Statement (i : Instr) : Prop :=
  i.operands.length = operandCount i.opcode ∧
    (isAluOp i.opcode = true ↔ (∃ a b, i = .add a b) ∨ (∃ a b, i = .mul a b) ∨ ∃ a b, i = .cmp a b)

namespace EncodingShape

theorem add (a b : Byte) : Statement (.add a b) :=
  ⟨show 2 = operandCount Opcode.add by decide, fun _ => .inl ⟨a, b, rfl⟩, fun _ => show isAluOp Opcode.add = true by decide⟩
theorem mul (a b : Byte) : Statement (.mul a b) :=
  ⟨show 2 = operandCount Opcode.mul by decide, fun _ => .inr (.inl ⟨a, b, rfl⟩), fun _ => show isAluOp Opcode.mul = true by decide⟩
theorem cmp (a b : Byte) : Statement (.cmp a b) :=
  ⟨show 2 = operandCount Opcode.cmp by decide, fun _ => .inr (.inr ⟨a, b, rfl⟩), fun _ => show isAluOp Opcode.cmp = true by decide⟩
theorem hlt : Statement .hlt :=
  ⟨show 0 = operandCount Opcode.hlt by decide, fun h => absurd h (show ¬ isAluOp Opcode.hlt = true by decide), by simp⟩
theorem ldi (a imm : Byte) : Statement (.ldi a imm) :=
  ⟨show 2 = operandCount Opcode.ldi by decide, fun h => absurd h (show ¬ isAluOp Opcode.ldi = true by decide), by simp⟩
theorem prn (a : Byte) : Statement (.prn a) :=
  ⟨show 1 = operandCount Opcode.prn by decide, fun h => absurd h (show ¬ isAluOp Opcode.prn = true by decide), by simp⟩
theorem psh (a : Byte) : Statement (.psh a) :=
  ⟨show 1 = operandCount Opcode.psh by decide, fun h => absurd h (show ¬ isAluOp Opcode.psh = true by decide), by simp⟩
theorem pop (a : Byte) : Statement (.pop a) :=
  ⟨show 1 = operandCount Opcode.pop by decide, fun h => absurd h (show ¬ isAluOp Opcode.pop = true by decide), by simp⟩
theorem call (a : Byte) : Statement (.call a) :=
  ⟨show 1 = operandCount Opcode.call by decide, fun h => absurd h (show ¬ isAluOp Opcode.call = true by decide), by simp⟩
theorem ret : Statement .ret :=
  ⟨show 0 = operandCount Opcode.ret by decide, fun h => absurd h (show ¬ isAluOp Opcode.ret = true by decide), by simp⟩
theorem jmp (a : Byte) : Statement (.jmp a) :=
  ⟨show 1 = operandCount Opcode.jmp by decide, fun h => absurd h (show ¬ isAluOp Opcode.jmp = true by decide), by simp⟩
theorem jeq (a : Byte) : Statement (.jeq a) :=
  ⟨show 1 = operandCount Opcode.jeq by decide, fun h => absurd h (show ¬ isAluOp Opcode.jeq = true by decide), by simp⟩
theorem jne (a : Byte) : Statement (.jne a) :=
  ⟨show 1 = operandCount Opcode.jne by decide, fun h => absurd h (show ¬ isAluOp Opcode.jne = true by decide), by simp⟩

end EncodingShape

end Sys2Proof.Laws
end

