-- ==== Sys2Proof/Machine/Interface.lean ====
section
/-! DEFINITION. What the surroundings can do to the core and see of it: reset, load, status (spec 10_state.md rules R22,
R23; 70_reset_and_hazards.md rules R140 to R143). -/

namespace Sys2Proof.Machine

/-- Reset as an event of the surroundings: "Nothing survives a reset" (R140). -/
def State.applyReset (_ : State) : State := State.reset

/-- The load interface (R141, R142): the image goes to ascending addresses from 0 and touches nothing but memory; an
image longer than memory "is not loadable and no run exists for it", so it is refused by name. -/
def State.load (s : State) (image : List Byte) : Host.Outcome State Fault Refusal :=
  if image.length ≤ Config.memSize then .next { s with mem := s.mem.writeAll Config.loadBase image }
  else .refused .imageTooLong

/-- The start state of a run: the state after reset with the image loaded (R28, R143). -/
def start (image : List Byte) : Host.Outcome State Fault Refusal := State.reset.load image

/-- The status interface: `running` and `fault`, read-only (R23). -/
def State.status (s : State) : Bool × FaultCause := (s.running, s.fault)

end Sys2Proof.Machine
end

