-- ==== Sys2Proof/Safety.lean ====
section
/-! DEFINITION. What counts as a safe state and a clean end (spec 60_exceptions.md rules R126, R127), what "unchanged" means
in the statements, and the duty of a program about its stack (70_reset_and_hazards.md rule R147). -/

namespace Sys2Proof.Machine

/-- Halted (R126): the normal, clean end of a program. -/
def State.halted (s : State) : Prop := s.running = false ∧ s.fault = .none

/-- Faulted (R127): stopped by a fatal error, never a clean end. -/
def State.faulted (s : State) : Prop := s.fault ≠ .none

/-- `k` steps one after the other (R70). -/
def runSteps : Nat → State → Host.Outcome State Fault Refusal
  | 0, s => .next s
  | k + 1, s =>
    match step s with
    | .next t => runSteps k t
    | .fault r => .fault r
    | .refused r => .refused r

/-- The instructions of a list executed one after the other, each in the state the one before it left. -/
def execAll : List Instr → State → Host.Outcome State Fault Refusal
  | [], s => .next s
  | i :: is, s =>
    match exec i s with
    | .next t => execAll is t
    | .fault r => .fault r
    | .refused r => .refused r

/-- No state among the first `k` steps from `s` is faulted. -/
def SafeFor (k : Nat) (s : State) : Prop := ∀ j ≤ k, ∀ t, runSteps j s = .next t → ¬ t.faulted

/-- The invariant every step keeps: memory is in its canonical form (the model's choice, log entry 18), and the core is not
halted and faulted at once (R127: "A state cannot be both"). -/
def State.Inv (s : State) : Prop := s.mem.wf ∧ (s.running = true ∨ s.fault = .none)

/-- Every register but those listed holds what it held. -/
def SameRegsExcept (ws : List Reg) (s t : State) : Prop := ∀ r, r ∉ ws → t.reg r = s.reg r

/-- Every byte of memory reads as it did. -/
def SameMem (s t : State) : Prop := ∀ b, t.mem.read b = s.mem.read b

/-- Every byte of memory but the one at `a` reads as it did. -/
def SameMemExcept (a : Byte) (s t : State) : Prop := ∀ b, b ≠ a → t.mem.read b = s.mem.read b

/-- The run flag, the fault register and the output stream hold what they held. -/
def SameStatus (s t : State) : Prop := t.running = s.running ∧ t.fault = s.fault ∧ t.out = s.out

/-- The duty of R147: an image of `len` bytes and a stack of at most `depth` bytes do not overlap. -/
def stackClearOfImage (len depth : Nat) : Prop := len + depth ≤ Config.spReset.toNat

end Sys2Proof.Machine
end

