-- ==== Sys2Proof/Certificates/Slice0/Obligations.lean ====
section
/-! DEFINITION. The statements for the provers. Log entries are those of notes/assumptions/. -/

open Sys2Proof Sys2Proof.Machine

/-! ## Encoding -/

/-- One word of each instruction, its opcode written out bit by bit from the table of R56, decodes to that instruction.
The opcode values are the spec's decision D1 (log entry 1). -/
def Obligations.WrittenOutWordsDecode : Prop :=
  decodeBytes [0b10100000#8, 0x04#8, 0x00#8] = .ok (.add 0x04 0x00) ∧
  decodeBytes [0b10100010#8, 0x00#8, 0x01#8] = .ok (.mul 0x00 0x01) ∧
  decodeBytes [0b10100111#8, 0x00#8, 0x02#8] = .ok (.cmp 0x00 0x02) ∧
  decodeBytes [0b00000001#8] = .ok .hlt ∧
  decodeBytes [0b10000010#8, 0x07#8, 0x0E#8] = .ok (.ldi 0x07 0x0E) ∧
  decodeBytes [0b01000111#8, 0x04#8] = .ok (.prn 0x04) ∧
  decodeBytes [0b01000101#8, 0x01#8] = .ok (.psh 0x01) ∧
  decodeBytes [0b01000110#8, 0x03#8] = .ok (.pop 0x03) ∧
  decodeBytes [0b01010000#8, 0x02#8] = .ok (.call 0x02) ∧
  decodeBytes [0b00010001#8] = .ok .ret ∧
  decodeBytes [0b01010100#8, 0x03#8] = .ok (.jmp 0x03) ∧
  decodeBytes [0b01010101#8, 0x02#8] = .ok (.jeq 0x02) ∧
  decodeBytes [0b01010110#8, 0x05#8] = .ok (.jne 0x05)

/-- R57, GOCA §8: the operand count and the ALU bit derived from the top three bits of each opcode are those of the table
(95_test_vectors.md B1). The opcode values are the spec's decision D1 (log entry 1). -/
def Obligations.TopThreeBitsGiveCountAndClass : Prop :=
  ∀ row ∈ [(0x01#8, 0, false), (0x11#8, 0, false), (0x45#8, 1, false), (0x46#8, 1, false), (0x47#8, 1, false),
      (0x50#8, 1, false), (0x54#8, 1, false), (0x55#8, 1, false), (0x56#8, 1, false), (0x82#8, 2, false),
      (0xA0#8, 2, true), (0xA2#8, 2, true), (0xA7#8, 2, true)],
    operandCount row.1 = row.2.1 ∧ isAluOp row.1 = row.2.2 ∧ ∃ i, decode row.1 0 0 = .ok i

/-- Decoding inverts encoding for every instruction at every operand value, whatever bytes follow (R53, R60); and the bytes of
an instruction are those it was decoded from, as many as its opcode's top two bits say (R50, R52). -/
def Obligations.DecodeAndEncodeAgree : Prop :=
  (∀ (i : Instr) (rest : List Byte), decodeBytes (encode i ++ rest) = .ok i) ∧
  (∀ (ir opa opb : Byte) (i : Instr), decode ir opa opb = .ok i →
    encode i = [ir, opa, opb].take (instructionLength ir))

/-- R142, R50, R32, R71: after any instructions are encoded one behind the other and loaded, each of them, wherever it stands, is
what the core fetches and decodes at its own address; an image of exactly 256 bytes included. Loading from outside is
the spec's decision D13, D16 (log entry 12). -/
def Obligations.LoadedProgramIsFetched : Prop :=
  ∀ (before after : List Instr) (i : Instr) (s t : State),
    (encodeAll (before ++ i :: after)).length ≤ 256 →
    s.load (encodeAll (before ++ i :: after)) = .next t →
    t.pc = BitVec.ofNat 8 (encodeAll before).length →
    t.fetchDecode = .ok i

/-! ## The step -/

/-- R70 to R72: while the core runs, a step executes the instruction that the three bytes at pc, pc +8 1 and pc +8 2
decode to. -/
def Obligations.StepRunsDecodedInstruction : Prop :=
  ∀ (s : State) (i : Instr), s.running = true → s.fault = .none →
    decode (s.mem.read s.pc) (s.mem.read (s.pc + 1)) (s.mem.read (s.pc + 2)) = .ok i →
    step s = exec i s

/-- R151 and R130: every step from every state answers a next state; nothing waits, and nothing ends in a fault or a refusal
of the model (that a fatal error is a next state is log entry 8, that a stopped core's step answers the same state log
entry 9). -/
def Obligations.EveryStepAnswersAState : Prop :=
  (∀ s : State, ∃ t, step s = .next t) ∧ ∀ (i : Instr) (s : State), ∃ t, exec i s = .next t

/-- R126, R127 and D15: a halted or a faulted core stays exactly as it is for any number of steps. That a step of a stopped
core answers the same state is the model's choice, log entry 9. -/
def Obligations.HaltedAndFaultedAreAbsorbing : Prop :=
  ∀ (k : Nat) (s : State), s.running = false ∨ s.fault ≠ .none →
    runSteps k s = .next s

/-- R127: a run that ends halted, the clean end, went through no faulted state on its way: a fatal error is never mistaken for
a clean end. -/
def Obligations.CleanEndMeansNoFatalError : Prop :=
  ∀ (k : Nat) (s t : State), runSteps k s = .next t → t.halted → SafeFor k s

/-- An instruction that transfers control leaves pc at the target its rule gives (44_control_transfer.md), and every other
instruction leaves pc at `ia +8 (1 + n)`, with `n` the top two bits of the opcode byte. That the adjustment is the net
displacement from `ia` is the spec's resolution C1 (log entry 15, DEDUCED); that CALL R7 goes to the decremented stack pointer
the spec derives from its statement order (log entry 13, DEDUCED). -/
def Obligations.PcTakesTargetOrNetDisplacement : Prop :=
  ∀ (s t : State) (i : Instr), s.running = true → s.fault = .none →
    decode (s.mem.read s.pc) (s.mem.read (s.pc + 1)) (s.mem.read (s.pc + 2)) = .ok i →
    step s = .next t → t.fault = .none →
    (∀ r, i = .jmp (regByte r) → t.pc = s.reg r) ∧
    (∀ r, i = .call (regByte r) → t.pc = if r = 7 then s.reg 7 - 1 else s.reg r) ∧
    (i = .ret → t.pc = s.mem.read (s.reg 7)) ∧
    (∀ r, i = .jeq (regByte r) → s.fl = .equal → t.pc = s.reg r) ∧
    (∀ r, i = .jne (regByte r) → s.fl ≠ .equal → t.pc = s.reg r) ∧
    ((∀ b, i ≠ .jmp b) → (∀ b, i ≠ .call b) → i ≠ .ret → (∀ b, i = .jeq b → s.fl ≠ .equal) →
      (∀ b, i = .jne b → s.fl = .equal) →
      t.pc = s.pc + BitVec.ofNat 8 (1 + (s.mem.read s.pc).toNat / 64))

/-- R71 with the spec's decisions D2, D3 (log entry 2): whatever the instruction, at pc = 0xFE its third byte is cell 0x00, and at
pc = 0xFF its second and third bytes are cells 0x00 and 0x01. In particular an LDI at either address and a PRN at 0xFF act on those
bytes and go on at the address behind their last one. -/
def Obligations.FetchWrapsAtTheTopOfMemory : Prop :=
  (∀ (s : State) (i : Instr), s.running = true → s.fault = .none → s.pc = 0xFE →
    decode (s.mem.read 0xFE) (s.mem.read 0xFF) (s.mem.read 0x00) = .ok i → step s = exec i s) ∧
  (∀ (s : State) (i : Instr), s.running = true → s.fault = .none → s.pc = 0xFF →
    decode (s.mem.read 0xFF) (s.mem.read 0x00) (s.mem.read 0x01) = .ok i → step s = exec i s) ∧
  (∀ (s : State) (r : Reg), s.running = true → s.fault = .none → s.pc = 0xFE →
    s.mem.read 0xFE = 0x82 → s.mem.read 0xFF = regByte r →
    ∃ t, step s = .next t ∧ t.reg r = s.mem.read 0x00 ∧ t.pc = 0x01) ∧
  (∀ (s : State) (r : Reg), s.running = true → s.fault = .none → s.pc = 0xFF →
    s.mem.read 0xFF = 0x82 → s.mem.read 0x00 = regByte r →
    ∃ t, step s = .next t ∧ t.reg r = s.mem.read 0x01 ∧ t.pc = 0x02) ∧
  (∀ (s : State) (r : Reg), s.running = true → s.fault = .none → s.pc = 0xFF →
    s.mem.read 0xFF = 0x47 → s.mem.read 0x00 = regByte r →
    ∃ t, step s = .next t ∧ t.out = s.out ++ [s.reg r] ∧ t.pc = 0x01)

/-! ## Reset, load, invariants -/

/-- R28, R140: the state after reset, from whatever state. pc, x[7] and running are the source's; the zeros of x[0..6] (D6, log entry 3) and of
memory (D7, log entry 4), the flag (D5, log entry 5), fault and out (D9, D14) are the spec's decisions. -/
def Obligations.ResetState : Prop :=
  State.reset.pc = 0x00 ∧ State.reset.reg 7 = 0xF4 ∧ (∀ r : Reg, r ≠ 7 → State.reset.reg r = 0x00) ∧
  State.reset.fl = .greater ∧ State.reset.running = true ∧ State.reset.fault = .none ∧ State.reset.out = [] ∧
  (∀ b : Byte, State.reset.mem.read b = 0x00) ∧ ∀ s : State, s.applyReset = State.reset

/-- The state after reset meets the invariant. That memory is held in a canonical form is the model's choice, log entry 18
(DESIGN CHOICE), and no rule of the spec. -/
def Obligations.ResetMeetsInv : Prop := State.reset.Inv

/-- Every step keeps the invariant: the core is never halted and faulted at once (R127: "A state cannot be both"), and memory
stays in its canonical form, which is the model's choice, log entry 18 (DESIGN CHOICE), and no rule of the spec. -/
def Obligations.EveryStepKeepsInv : Prop :=
  ∀ s t : State, s.Inv → step s = .next t → t.Inv

/-- Two memories in canonical form that read alike at every address are the same data. The statement is about the model's way to
hold memory, its own choice, log entry 18 (DESIGN CHOICE), and about no rule of the spec. -/
def Obligations.CanonicalMemoriesThatReadAlikeAreEqual : Prop :=
  ∀ m n : Memory, m.wf → n.wf → (∀ a : Byte, m.read a = n.read a) → m = n

/-- R142 with the spec's decision D16 (log entry 12): an image of at most 256 bytes is loaded, byte `k` at address `k`, and
nothing else changes; a longer image is refused. That the canonical form of memory is kept is about the model's own choice, log
entry 18 (DESIGN CHOICE). -/
def Obligations.LoadWritesTheImageFromZero : Prop :=
  (∀ (s : State) (image : List Byte), image.length ≤ 256 → ∃ t, s.load image = .next t ∧
    (∀ k (hk : k < image.length), t.mem.read (BitVec.ofNat 8 k) = image[k]) ∧
    (∀ b : Byte, image.length ≤ b.toNat → t.mem.read b = s.mem.read b) ∧
    SameRegsExcept [] s t ∧ t.pc = s.pc ∧ t.fl = s.fl ∧ SameStatus s t ∧ (s.mem.wf → t.mem.wf)) ∧
  (∀ (s : State) (image : List Byte), 256 < image.length → s.load image = .refused .imageTooLong)

/-! ## ALU instructions -/

/-- R81 whole: ADD. The opcode value is the spec's decision D1, the modulus D4, the index check D8 (log entries 1, 6, 7); R81
states each in its own text. -/
def Obligations.AddWritesTheSumModulo256 : Prop :=
  (∀ opa opb : Byte, decode 0xA0 opa opb = .ok (.add opa opb)) ∧
  (∀ (a b : Reg) (s : State), ∃ t, exec (.add (regByte a) (regByte b)) s = .next t ∧
    (t.reg a).toNat = ((s.reg a).toNat + (s.reg b).toNat) % 256 ∧
    SameRegsExcept [a] s t ∧ t.pc = s.pc + 3 ∧ t.fl = s.fl ∧ SameStatus s t ∧ SameMem s t) ∧
  (∀ (opa opb : Byte) (s : State), 7 < opa.toNat ∨ 7 < opb.toNat →
    exec (.add opa opb) s = .next { s with fault := .regIndex })

/-- R82 whole: MUL. Decisions D1, D4, D8 as for ADD. -/
def Obligations.MulWritesTheLowByteOfTheProduct : Prop :=
  (∀ opa opb : Byte, decode 0xA2 opa opb = .ok (.mul opa opb)) ∧
  (∀ (a b : Reg) (s : State), ∃ t, exec (.mul (regByte a) (regByte b)) s = .next t ∧
    (t.reg a).toNat = ((s.reg a).toNat * (s.reg b).toNat) % 256 ∧
    SameRegsExcept [a] s t ∧ t.pc = s.pc + 3 ∧ t.fl = s.fl ∧ SameStatus s t ∧ SameMem s t) ∧
  (∀ (opa opb : Byte) (s : State), 7 < opa.toNat ∨ 7 < opb.toNat →
    exec (.mul opa opb) s = .next { s with fault := .regIndex })

/-- R83 whole: CMP overwrites the flag from the unsigned comparison, whatever it held, and writes nothing else but pc.
Decisions D1, D8 as for ADD. -/
def Obligations.CmpSetsTheFlagUnsigned : Prop :=
  (∀ opa opb : Byte, decode 0xA7 opa opb = .ok (.cmp opa opb)) ∧
  (∀ (a b : Reg) (s : State), ∃ t, exec (.cmp (regByte a) (regByte b)) s = .next t ∧
    (t.fl = .equal ↔ (s.reg a).toNat = (s.reg b).toNat) ∧
    (t.fl = .greater ↔ (s.reg b).toNat < (s.reg a).toNat) ∧
    (t.fl = .less ↔ (s.reg a).toNat < (s.reg b).toNat) ∧
    SameRegsExcept [] s t ∧ t.pc = s.pc + 3 ∧ SameStatus s t ∧ SameMem s t) ∧
  (∀ (opa opb : Byte) (s : State), 7 < opa.toNat ∨ 7 < opb.toNat →
    exec (.cmp opa opb) s = .next { s with fault := .regIndex })

/-! ## HLT, LDI, PRN -/

/-- R91 whole: HLT clears running, so the core is stopped, leaves pc at the byte after it, and writes nothing else. The opcode
value is the spec's decision D1 (log entry 1). -/
def Obligations.HltStopsTheCore : Prop :=
  (∀ opa opb : Byte, decode 0x01 opa opb = .ok .hlt) ∧
  (∀ s : State, ∃ t, exec .hlt s = .next t ∧ t.running = false ∧ t.pc = s.pc + 1 ∧
    SameRegsExcept [] s t ∧ t.fl = s.fl ∧ t.fault = s.fault ∧ t.out = s.out ∧ SameMem s t ∧ t.stopped = true)

/-- R92 whole: LDI stores every immediate unchanged, into register 7 too. Decisions D1, D8 as for ADD. -/
def Obligations.LdiLoadsTheImmediate : Prop :=
  (∀ opa opb : Byte, decode 0x82 opa opb = .ok (.ldi opa opb)) ∧
  (∀ (a : Reg) (v : Byte) (s : State), ∃ t, exec (.ldi (regByte a) v) s = .next t ∧ t.reg a = v ∧
    SameRegsExcept [a] s t ∧ t.pc = s.pc + 3 ∧ t.fl = s.fl ∧ SameStatus s t ∧ SameMem s t) ∧
  (∀ (opa v : Byte) (s : State), 7 < opa.toNat → exec (.ldi opa v) s = .next { s with fault := .regIndex })

/-- R93: PRN appends the register's value to the output, and an LDI followed by a PRN of the same register outputs the
immediate. That the output never blocks is the spec's decision D14 (log entry 11); D1, D8 as for ADD. -/
def Obligations.PrnOutputsTheRegister : Prop :=
  (∀ opa opb : Byte, decode 0x47 opa opb = .ok (.prn opa)) ∧
  (∀ (a : Reg) (s : State), ∃ t, exec (.prn (regByte a)) s = .next t ∧ t.out = s.out ++ [s.reg a] ∧
    SameRegsExcept [] s t ∧ t.pc = s.pc + 2 ∧ t.fl = s.fl ∧ t.running = s.running ∧ t.fault = s.fault ∧ SameMem s t) ∧
  (∀ (opa : Byte) (s : State), 7 < opa.toNat → exec (.prn opa) s = .next { s with fault := .regIndex }) ∧
  (∀ (a : Reg) (v : Byte) (s : State), ∃ t u, exec (.ldi (regByte a) v) s = .next t ∧
    exec (.prn (regByte a)) t = .next u ∧ u.out = s.out ++ [v])

/-! ## Stack -/

/-- R101 whole: PSH decrements x[7], then stores x[opa] there, so PSH R7 stores the decremented value. Decisions D1, D8 as
for ADD. -/
def Obligations.PshStoresBelowTheStackPointer : Prop :=
  (∀ opa opb : Byte, decode 0x45 opa opb = .ok (.psh opa)) ∧
  (∀ (a : Reg) (s : State), ∃ t, exec (.psh (regByte a)) s = .next t ∧ t.reg 7 = s.reg 7 - 1 ∧
    (∀ top : Byte, s.decSp.sp = top →
      t.mem.read top = (if a = 7 then s.reg 7 - 1 else s.reg a) ∧ top = s.reg 7 - 1 ∧ SameMemExcept top s t) ∧
    SameRegsExcept [7] s t ∧ t.pc = s.pc + 2 ∧ t.fl = s.fl ∧ SameStatus s t) ∧
  (∀ (opa : Byte) (s : State), 7 < opa.toNat → exec (.psh opa) s = .next { s with fault := .regIndex })

/-- R102 whole: POP writes the cell x[7] addresses to x[opa], then increments x[7], so POP R7 leaves the popped value plus one.
Memory keeps its value. Decisions D1, D8 as for ADD. -/
def Obligations.PopLoadsFromTheStackPointer : Prop :=
  (∀ opa opb : Byte, decode 0x46 opa opb = .ok (.pop opa)) ∧
  (∀ (a : Reg) (s : State), ∃ t, exec (.pop (regByte a)) s = .next t ∧
    t.reg a = (if a = 7 then s.mem.read (s.reg 7) + 1 else s.mem.read (s.reg 7)) ∧
    (a ≠ 7 → t.reg 7 = s.reg 7 + 1) ∧
    SameRegsExcept [a, 7] s t ∧ t.pc = s.pc + 2 ∧ t.fl = s.fl ∧ SameStatus s t ∧ SameMem s t) ∧
  (∀ (opa : Byte) (s : State), 7 < opa.toNat → exec (.pop opa) s = .next { s with fault := .regIndex })

/-- R105 whole: with register operands other than 7, a PSH followed by a POP reproduces the value in the other register and puts
x[7] back, the cell keeps the value; and values come off in the reverse of the order they went on: after up to 256 PSHs of the
registers `rs`, none of them 7, and fewer POPs into registers `ps` other than 7, the next POP gives the value of the register as far from the end of `rs` as
there were POPs before it, and with the last POP x[7] is back. -/
def Obligations.PopUndoesPshLastInFirstOut : Prop :=
  (∀ (a b : Reg) (s : State), a ≠ 7 → b ≠ 7 → ∃ t u, exec (.psh (regByte a)) s = .next t ∧
    exec (.pop (regByte b)) t = .next u ∧
    u.reg b = s.reg a ∧ u.reg 7 = s.reg 7 ∧ u.mem.read (s.reg 7 - 1) = s.reg a) ∧
  (∀ (rs ps : List Reg) (q : Reg) (s : State), 7 ∉ rs → 7 ∉ ps → q ≠ 7 → rs.length ≤ 256 →
    ∀ h : ps.length < rs.length, ∃ t,
      execAll (rs.map (fun r => .psh (regByte r)) ++ ps.map (fun r => .pop (regByte r)) ++ [.pop (regByte q)]) s = .next t ∧
      t.reg q = s.reg (rs[rs.length - 1 - ps.length]) ∧
      t.reg 7 = s.reg 7 - BitVec.ofNat 8 (rs.length - 1 - ps.length))

/-- R38 at its two boundary values: a push at x[7] = 0x00 writes cell 0xFF, and a pop or a return at x[7] = 0xFF reads cell 0xFF and
leaves x[7] = 0x00. For CALL and RET the wrap is the spec's decision D12 (log entry 10). -/
def Obligations.StackPointerWrapsModulo256 : Prop :=
  (∀ (a : Reg) (s : State), s.reg 7 = 0x00 → ∃ t u, exec (.psh (regByte a)) s = .next t ∧ t.reg 7 = 0xFF ∧
    t.mem.read 0xFF = (if a = 7 then 0xFF else s.reg a) ∧
    exec (.call (regByte a)) s = .next u ∧ u.reg 7 = 0xFF ∧ u.mem.read 0xFF = s.pc + 2) ∧
  (∀ (a : Reg) (s : State), a ≠ 7 → s.reg 7 = 0xFF → ∃ t u, exec (.pop (regByte a)) s = .next t ∧ t.reg 7 = 0x00 ∧
    t.reg a = s.mem.read 0xFF ∧ exec .ret s = .next u ∧ u.reg 7 = 0x00 ∧ u.pc = s.mem.read 0xFF)

/-- R147: while the stack holds `depth` bytes below its reset address and one more still fits beside an image of `len` bytes, a PSH or
a CALL changes no byte of the image. -/
def Obligations.PushKeepsClearOfTheImage : Prop :=
  ∀ (len depth : Nat) (s t : State) (a : Reg), stackClearOfImage len (depth + 1) →
    (s.reg 7).toNat = 0xF4 - depth →
    exec (.psh (regByte a)) s = .next t ∨ exec (.call (regByte a)) s = .next t →
    ∀ b : Byte, b.toNat < len → t.mem.read b = s.mem.read b

/-! ## Control transfer -/

/-- R111: CALL pushes the address of the byte after it and jumps to x[opa], read after the decrement. The width of the return
address is the spec's decision D2 (log entry 2), the order for CALL R7 derived by the spec from its statement order (log entry
13); D1, D8 as for ADD. -/
def Obligations.CallPushesTheReturnAddress : Prop :=
  (∀ opa opb : Byte, decode 0x50 opa opb = .ok (.call opa)) ∧
  (∀ (a : Reg) (s : State), ∃ t, exec (.call (regByte a)) s = .next t ∧ t.reg 7 = s.reg 7 - 1 ∧
    (∀ top : Byte, s.decSp.sp = top →
      t.mem.read top = s.pc + 2 ∧ top = s.reg 7 - 1 ∧ SameMemExcept top s t) ∧
    t.pc = (if a = 7 then s.reg 7 - 1 else s.reg a) ∧
    SameRegsExcept [7] s t ∧ t.fl = s.fl ∧ SameStatus s t) ∧
  (∀ (opa : Byte) (s : State), 7 < opa.toNat → exec (.call opa) s = .next { s with fault := .regIndex })

/-- R112 whole: RET goes to the byte x[7] addresses and increments x[7]. The opcode value is the spec's decision D1
(log entry 1). -/
def Obligations.RetGoesToThePoppedAddress : Prop :=
  (∀ opa opb : Byte, decode 0x11 opa opb = .ok .ret) ∧
  (∀ s : State, ∃ t, exec .ret s = .next t ∧ t.pc = s.mem.read (s.reg 7) ∧ t.reg 7 = s.reg 7 + 1 ∧
    SameRegsExcept [7] s t ∧ t.fl = s.fl ∧ SameStatus s t ∧ SameMem s t)

/-- R116 whole: when a subroutine leaves x[7] and the cell it addresses as the CALL left them, its RET resumes at the
instruction after the CALL with x[7] as it was before; and calls nest: up to 256 CALLs in a row, through any registers, are undone
by as many RETs, the last of which resumes after the first CALL. -/
def Obligations.RetResumesAfterTheCallAtAnyDepth : Prop :=
  (∀ (a : Reg) (s : State), ∃ t, exec (.call (regByte a)) s = .next t ∧
    ∀ u : State, u.reg 7 = t.reg 7 → u.mem.read (t.reg 7) = t.mem.read (t.reg 7) →
      ∃ v, exec .ret u = .next v ∧ v.pc = s.pc + 2 ∧ v.reg 7 = s.reg 7) ∧
  (∀ (rs : List Reg) (s : State), 0 < rs.length → rs.length ≤ 256 → ∃ t,
    execAll (rs.map (fun r => .call (regByte r)) ++ List.replicate rs.length .ret) s = .next t ∧
    t.pc = s.pc + 2 ∧ t.reg 7 = s.reg 7)

/-- R113 whole: JMP. Decisions D1, D8 as for ADD. -/
def Obligations.JmpGoesToTheRegister : Prop :=
  (∀ opa opb : Byte, decode 0x54 opa opb = .ok (.jmp opa)) ∧
  (∀ (a : Reg) (s : State), ∃ t, exec (.jmp (regByte a)) s = .next t ∧ t.pc = s.reg a ∧
    SameRegsExcept [] s t ∧ t.fl = s.fl ∧ SameStatus s t ∧ SameMem s t) ∧
  (∀ (opa : Byte) (s : State), 7 < opa.toNat → exec (.jmp opa) s = .next { s with fault := .regIndex })

/-- R114 whole: JEQ jumps if and only if the flag is EQUAL; not taken, its operand may be any byte. Decisions D1, D8 as for
ADD. -/
def Obligations.JeqJumpsIffEqual : Prop :=
  (∀ opa opb : Byte, decode 0x55 opa opb = .ok (.jeq opa)) ∧
  (∀ (a : Reg) (s : State), s.fl = .equal → ∃ t, exec (.jeq (regByte a)) s = .next t ∧ t.pc = s.reg a ∧
    SameRegsExcept [] s t ∧ t.fl = s.fl ∧ SameStatus s t ∧ SameMem s t) ∧
  (∀ (opa : Byte) (s : State), s.fl = .equal → 7 < opa.toNat →
    exec (.jeq opa) s = .next { s with fault := .regIndex }) ∧
  (∀ (opa : Byte) (s : State), s.fl ≠ .equal → ∃ t, exec (.jeq opa) s = .next t ∧ t.pc = s.pc + 2 ∧
    SameRegsExcept [] s t ∧ t.fl = s.fl ∧ SameStatus s t ∧ SameMem s t)

/-- R115: JNE jumps if and only if the flag is GREATER or LESS; not taken, its operand may be any byte. Decisions D1, D8 as
for ADD. -/
def Obligations.JneJumpsIffNotEqual : Prop :=
  (∀ opa opb : Byte, decode 0x56 opa opb = .ok (.jne opa)) ∧
  (∀ (a : Reg) (s : State), s.fl = .greater ∨ s.fl = .less → ∃ t, exec (.jne (regByte a)) s = .next t ∧
    t.pc = s.reg a ∧ SameRegsExcept [] s t ∧ t.fl = s.fl ∧ SameStatus s t ∧ SameMem s t) ∧
  (∀ (opa : Byte) (s : State), s.fl = .greater ∨ s.fl = .less → 7 < opa.toNat →
    exec (.jne opa) s = .next { s with fault := .regIndex }) ∧
  (∀ (opa : Byte) (s : State), s.fl = .equal → ∃ t, exec (.jne opa) s = .next t ∧ t.pc = s.pc + 2 ∧
    SameRegsExcept [] s t ∧ t.fl = s.fl ∧ SameStatus s t ∧ SameMem s t)

/-! ## Fatal errors -/

/-- R122 whole: a running core's step raises UNKNOWN_OPCODE exactly when the opcode byte has bit 5 clear and is not one of the ten
handler opcodes, whatever else the state holds; those are 118 byte values. -/
def Obligations.UnknownOpcodeRaisedExactly : Prop :=
  (∀ s : State, s.running = true → s.fault = .none →
    ((∃ t, step s = .next t ∧ t.fault = .unknownOpcode) ↔
      (s.mem.read s.pc).toNat / 32 % 2 = 0 ∧
        s.mem.read s.pc ∉ [0x01, 0x11, 0x45, 0x46, 0x47, 0x50, 0x54, 0x55, 0x56, 0x82])) ∧
  ((List.range 256).filter fun n => n / 32 % 2 = 0 ∧
    n ∉ [0x01, 0x11, 0x45, 0x46, 0x47, 0x50, 0x54, 0x55, 0x56, 0x82]).length = 118

/-- R123 whole: a running core's step raises UNSUPPORTED_ALU_OP exactly when the opcode byte has bit 5 set and is not 0xA0, 0xA2 or
0xA7, whatever else the state holds; those are 125 byte values. -/
def Obligations.UnsupportedAluOpRaisedExactly : Prop :=
  (∀ s : State, s.running = true → s.fault = .none →
    ((∃ t, step s = .next t ∧ t.fault = .unsupportedAluOp) ↔
      (s.mem.read s.pc).toNat / 32 % 2 = 1 ∧ s.mem.read s.pc ∉ [0xA0, 0xA2, 0xA7])) ∧
  ((List.range 256).filter fun n => n / 32 % 2 = 1 ∧ n ∉ [0xA0, 0xA2, 0xA7]).length = 125

/-- R124 with the spec's decision D8 (log entry 7): a legal instruction raises REG_INDEX exactly when it is about to access a register
through an operand byte greater than 7, which a JEQ or a JNE does only when it is taken. -/
def Obligations.RegIndexRaisedExactly : Prop :=
  ∀ (i : Instr) (s t : State), s.fault = .none → exec i s = .next t →
    (t.fault = .regIndex ↔ (∃ b ∈ i.registerOperands, 7 < b.toNat) ∧
      (∀ b, i = .jeq b → s.fl = .equal) ∧ (∀ b, i = .jne b → s.fl ≠ .equal))

/-- R54, R124: an instruction whose register operands are all in range never changes the fault register, and LDI's immediate is never
checked. -/
def Obligations.WellFormedInstructionsRaiseNothing : Prop :=
  ∀ (i : Instr) (s : State), i.wellFormed = true → ∃ t, exec i s = .next t ∧ t.fault = s.fault

/-- R121 with the spec's decisions D9, D10 (log entry 8): a step that raises a fatal error writes nothing but the fault register: pc
still addresses the faulting opcode and running stays true. -/
def Obligations.FatalErrorsArePrecise : Prop :=
  ∀ s t : State, s.running = true → s.fault = .none → step s = .next t → t.fault ≠ .none →
    t = { s with fault := t.fault } ∧ t.pc = s.pc ∧ t.running = true ∧ t.mem = s.mem

/-- R20 with the spec's decision D9 (log entry 8): the fault register once set never changes, its codes are 0 to 3, and no
instruction reads it. -/
def Obligations.FaultIsStickyAndUnread : Prop :=
  (∀ s t : State, s.fault ≠ .none → step s = .next t → t.fault = s.fault) ∧
  (FaultCause.code .none = 0 ∧ FaultCause.code .unknownOpcode = 1 ∧ FaultCause.code .unsupportedAluOp = 2 ∧
    FaultCause.code .regIndex = 3) ∧
  (∀ (i : Instr) (s t : State) (e : FaultCause), exec i s = .next t →
    ∃ u, exec i { s with fault := e } = .next u ∧ { u with fault := t.fault } = t)

/-! ## Whole-machine rules -/

/-- R17 whole: CMP is the only instruction that writes the flag, JEQ and JNE the only ones that read it, and both test only whether
it is EQUAL. -/
def Obligations.FlagWrittenByCmpReadByJumps : Prop :=
  (∀ (i : Instr) (s t : State), exec i s = .next t → t.fl ≠ s.fl → ∃ opa opb, i = .cmp opa opb) ∧
  (∀ (a b : Reg) (s : State) (f : Sys2Proof.Machine.Flag),
    exec (.cmp (regByte a) (regByte b)) { s with fl := f } = exec (.cmp (regByte a) (regByte b)) s) ∧
  (∀ (i : Instr) (s t : State) (f : Sys2Proof.Machine.Flag), (∀ b, i ≠ .jeq b) → (∀ b, i ≠ .jne b) → exec i s = .next t →
    ∃ u, exec i { s with fl := f } = .next u ∧ { u with fl := t.fl } = t) ∧
  (∀ (a : Reg) (s : State),
    exec (.jeq (regByte a)) { s with fl := .equal } = .next { s with fl := .equal, pc := s.reg a } ∧
    exec (.jeq (regByte a)) { s with fl := .less } = .next { s with fl := .less, pc := s.pc + 2 } ∧
    exec (.jne (regByte a)) { s with fl := .equal } = .next { s with fl := .equal, pc := s.pc + 2 } ∧
    exec (.jne (regByte a)) { s with fl := .less } = .next { s with fl := .less, pc := s.reg a }) ∧
  (∀ (i : Instr) (s t : State) (f : Sys2Proof.Machine.Flag), s.fl ≠ .equal → f ≠ .equal → exec i s = .next t →
    ∃ u, exec i { s with fl := f } = .next u ∧ { u with fl := t.fl } = t)

/-- R115, R18: GREATER and LESS are indistinguishable to every program: two runs from states that differ only in which of the two
the flag holds agree, after any number of steps, in everything but which of the two it holds. -/
def Obligations.GreaterAndLessAreIndistinguishable : Prop :=
  ∀ (k : Nat) (s t : State) (f : Sys2Proof.Machine.Flag), s.fl ≠ .equal → f ≠ .equal →
    runSteps k s = .next t →
    ∃ u, runSteps k { s with fl := f } = .next u ∧ { u with fl := t.fl } = t ∧
      (u.fl = .equal ↔ t.fl = .equal)

/-- R19 whole: running is true after reset, read only by the step, cleared only by HLT and set by nothing. -/
def Obligations.RunningClearedOnlyByHlt : Prop :=
  State.reset.running = true ∧
  (∀ s t : State, s.running = false → step s = .next t → t.running = false) ∧
  (∀ (i : Instr) (s t : State), exec i s = .next t → t.running ≠ s.running → i = .hlt ∧ t.running = false) ∧
  (∀ s : State, ∃ t, exec .hlt s = .next t ∧ t.running = false) ∧
  (∀ s t : State, step s = .next t → t.running ≠ s.running → s.mem.read s.pc = 0x01) ∧
  (∀ (i : Instr) (s t : State) (b : Bool), exec i s = .next t →
    ∃ u, exec i { s with running := b } = .next u ∧ { u with running := t.running } = t)

/-- R26, R31: during execution only PSH and CALL write memory, and only the cell just below the stack pointer. -/
def Obligations.MemoryWrittenOnlyByPshAndCall : Prop :=
  ∀ (s t : State) (b : Byte), step s = .next t → t.mem.read b ≠ s.mem.read b →
    b = s.reg 7 - 1 ∧ (s.mem.read s.pc = 0x45 ∨ s.mem.read s.pc = 0x50)

/-- R22: the output is append-only; a step appends at most one value, and only PRN does; no instruction reads it. That the output is a
stream without limit is the spec's decision D14 (log entry 11). -/
def Obligations.OutputOnlyGrowsByPrn : Prop :=
  (∀ s t : State, step s = .next t →
    t.out = s.out ∨ (s.mem.read s.pc = 0x47 ∧ ∃ a : Reg, s.mem.read (s.pc + 1) = regByte a ∧ t.out = s.out ++ [s.reg a])) ∧
  (∀ (k : Nat) (s t : State), runSteps k s = .next t → s.out <+: t.out) ∧
  (∀ (i : Instr) (s t : State) (o : List Byte), exec i s = .next t →
    ∃ u, exec i { s with out := o } = .next u ∧ { u with out := t.out } = t)

/-- R43, R44: a PSH or a CALL executes as fetched, even when it writes over its own bytes, and the very next fetch reads the byte it
stored wherever that is one of the three bytes fetched, the opcode or an operand byte, and reads every other byte as it was; so
does every later read. The target and the byte of CALL R7, and the byte of PSH R7, the spec derives from its statement order
(R111 b, R103 a, log entry 13, DEDUCED). -/
def Obligations.StoredByteIsFetchedNext : Prop :=
  (∀ (s : State) (a : Reg), s.running = true → s.fault = .none →
    s.mem.read s.pc = 0x45 → s.mem.read (s.pc + 1) = regByte a →
    let after : Byte → Byte := fun b =>
      if b = s.reg 7 - 1 then (if a = 7 then s.reg 7 - 1 else s.reg a) else s.mem.read b
    ∃ t, step s = .next t ∧ t.pc = s.pc + 2 ∧ t.fetch = (after (s.pc + 2), after (s.pc + 3), after (s.pc + 4)) ∧
      ∀ b, t.mem.read b = after b) ∧
  (∀ (s : State) (a : Reg), s.running = true → s.fault = .none →
    s.mem.read s.pc = 0x50 → s.mem.read (s.pc + 1) = regByte a →
    let after : Byte → Byte := fun b => if b = s.reg 7 - 1 then s.pc + 2 else s.mem.read b
    let target : Byte := if a = 7 then s.reg 7 - 1 else s.reg a
    ∃ t, step s = .next t ∧ t.pc = target ∧ t.fetch = (after target, after (target + 1), after (target + 2)) ∧
      ∀ b, t.mem.read b = after b)
end

