-- ==== Sys2Proof/Laws/Decode.lean ====
section
/-! SUPPORT. What the decoder reads from each of the thirteen opcodes, and from a byte that is none of them. -/

namespace Sys2Proof

@[simp] theorem decode_add (a b : Byte) : decode Opcode.add a b = .ok (.add a b) := rfl
@[simp] theorem decode_mul (a b : Byte) : decode Opcode.mul a b = .ok (.mul a b) := rfl
@[simp] theorem decode_cmp (a b : Byte) : decode Opcode.cmp a b = .ok (.cmp a b) := rfl
@[simp] theorem decode_hlt (a b : Byte) : decode Opcode.hlt a b = .ok .hlt := rfl
@[simp] theorem decode_ldi (a b : Byte) : decode Opcode.ldi a b = .ok (.ldi a b) := rfl
@[simp] theorem decode_prn (a b : Byte) : decode Opcode.prn a b = .ok (.prn a) := rfl
@[simp] theorem decode_psh (a b : Byte) : decode Opcode.psh a b = .ok (.psh a) := rfl
@[simp] theorem decode_pop (a b : Byte) : decode Opcode.pop a b = .ok (.pop a) := rfl
@[simp] theorem decode_call (a b : Byte) : decode Opcode.call a b = .ok (.call a) := rfl
@[simp] theorem decode_ret (a b : Byte) : decode Opcode.ret a b = .ok .ret := rfl
@[simp] theorem decode_jmp (a b : Byte) : decode Opcode.jmp a b = .ok (.jmp a) := rfl
@[simp] theorem decode_jeq (a b : Byte) : decode Opcode.jeq a b = .ok (.jeq a) := rfl
@[simp] theorem decode_jne (a b : Byte) : decode Opcode.jne a b = .ok (.jne a) := rfl

/-- A byte that decodes is the opcode of what it decodes to. -/
theorem opcode_of_decode {ir a b : Byte} {i : Instr} (h : decode ir a b = .ok i) : i.opcode = ir := by
  unfold decode decodeAlu decodeHandler at h
  split at h <;> repeat' split at h
  all_goals first
    | (obtain rfl := Except.ok.inj h; subst_vars; rfl)
    | cases h

/-- A rejected byte is rejected for the class bit 5 puts it in. -/
theorem illegal_of_decode {ir a b : Byte} {e : Illegal} (h : decode ir a b = .error e) :
    e = if isAluOp ir then .unsupportedAluOp else .unknownOpcode := by
  unfold decode decodeAlu decodeHandler at h
  split at h <;> repeat' split at h
  all_goals first
    | (obtain rfl := Except.error.inj h; simp [*])
    | cases h

theorem encodeAll_append (xs ys : List Instr) : encodeAll (xs ++ ys) = encodeAll xs ++ encodeAll ys := by
  induction xs with
  | nil => rfl
  | cons x xs ih => simp [encodeAll, ih]

end Sys2Proof
end

