-- ==== Sys2Proof/Laws/Memory.lean ====
section
/-! SUPPORT. The laws of memory: a read after a write, and the canonical form that every memory operation keeps. -/

namespace Sys2Proof.Machine

/-! ## Reading after each operation -/

theorem Memory.lookup_erase (m : Memory) (k j : Nat) :
    (m.erase k).lookup j = if j = k then Config.memFill else m.lookup j := by
  induction m with
  | nil => simp [Memory.erase, Memory.lookup]
  | cons c m ih =>
    obtain ⟨k', v⟩ := c
    unfold Memory.erase at ih ⊢
    by_cases hk : k' = k
    · subst hk
      by_cases hj : j = k'
      · simpa [hj] using ih
      · simpa [Memory.lookup, hj, Ne.symm hj] using ih
    · by_cases hj : k' = j
      · subst hj
        simp [Memory.lookup, hk]
      · simpa [Memory.lookup, hk, hj] using ih

theorem Memory.lookup_insert (m : Memory) (k : Nat) (v : Byte) (hk : ∀ c ∈ m, c.1 ≠ k) (j : Nat) :
    (Memory.insert k v m).lookup j = if j = k then v else m.lookup j := by
  induction m with
  | nil => simp [Memory.insert, Memory.lookup, eq_comm]
  | cons c m ih =>
    obtain ⟨k', v'⟩ := c
    have hk' : k' ≠ k := hk (k', v') (by simp)
    have ih' := ih fun c hc => hk c (by simp [hc])
    by_cases hj : j = k
    · subst hj
      by_cases hlt : j < k'
      · simp [Memory.insert, Memory.lookup, hlt]
      · simpa [Memory.insert, Memory.lookup, hlt, hk'] using ih'
    · by_cases hlt : k < k'
      · simp [Memory.insert, Memory.lookup, hlt, hj, Ne.symm hj]
      · by_cases hj' : k' = j
        · subst hj'
          simp [Memory.insert, Memory.lookup, hlt, hj]
        · simpa [Memory.insert, Memory.lookup, hlt, hj, hj'] using ih'

theorem Memory.mem_erase {m : Memory} {k : Nat} {c : Host.Cell} : c ∈ m.erase k ↔ c ∈ m ∧ c.1 ≠ k := by
  simp [Memory.erase]

/-- A read after a write (R35): the written cell reads as the value, every other as before. -/
theorem Memory.read_write (m : Memory) (a v b : Byte) :
    (m.write a v).read b = if b = a then v else m.read b := by
  have hab : b.toNat = a.toNat ↔ b = a := BitVec.toNat_inj
  unfold Memory.write Memory.read
  split
  · rename_i hv
    simp only [Memory.lookup_erase, hab, hv]
  · rw [Memory.lookup_insert _ _ _ fun c hc => (Memory.mem_erase.1 hc).2]
    simp only [Memory.lookup_erase, hab]
    split <;> rfl

@[simp] theorem Memory.read_write_same (m : Memory) (a v : Byte) : (m.write a v).read a = v := by
  simp [Memory.read_write]

theorem Memory.read_write_other (m : Memory) {a b : Byte} (h : b ≠ a) (v : Byte) :
    (m.write a v).read b = m.read b := by
  simp [Memory.read_write, h]

@[simp] theorem Memory.read_nil (a : Byte) : Memory.read [] a = Config.memFill := rfl

/-- A read after consecutive writes that stay below the top of memory: the bytes at their addresses, every other cell as
before. -/
theorem Memory.read_writeAll (vs : List Byte) (m : Memory) (n : Nat) (h : n + vs.length ≤ 256) (b : Byte) :
    (m.writeAll (BitVec.ofNat 8 n) vs).read b =
      if n ≤ b.toNat then vs.getD (b.toNat - n) (m.read b) else m.read b := by
  induction vs generalizing m n with
  | nil => simp [Memory.writeAll]
  | cons v vs ih =>
    have hlen : n + (vs.length + 1) ≤ 256 := h
    have hb : b = BitVec.ofNat 8 n ↔ b.toNat = n := by
      rw [← BitVec.toNat_inj, BitVec.toNat_ofNat, Nat.mod_eq_of_lt (by omega)]
    have hnext : BitVec.ofNat 8 n + 1 = BitVec.ofNat 8 (n + 1) := (BitVec.ofNat_add n 1).symm
    rw [Memory.writeAll, hnext, ih _ _ (by omega), Memory.read_write]
    rcases lt_trichotomy b.toNat n with hlt | heq | hgt
    · simp [hb, hlt.ne, show ¬ n + 1 ≤ b.toNat by omega, show ¬ n ≤ b.toNat by omega]
    · simp [hb, heq]
    · obtain ⟨j, hj⟩ : ∃ j, b.toNat - n = j + 1 := ⟨b.toNat - (n + 1), by omega⟩
      simp [hb, hgt.ne', show n + 1 ≤ b.toNat by omega, show n ≤ b.toNat by omega, hj,
        show b.toNat - (n + 1) = j by omega]

/-! ## The canonical form -/

theorem Memory.wf_nil : Memory.wf [] := by simp [Memory.wf]

theorem Memory.wf_erase {m : Memory} (h : m.wf) (k : Nat) : (m.erase k).wf :=
  ⟨h.1.filter _, fun c hc => h.2 c (Memory.mem_erase.1 hc).1⟩

theorem Memory.mem_insert {m : Memory} {k : Nat} {v : Byte} {c : Host.Cell} :
    c ∈ Memory.insert k v m ↔ c = (k, v) ∨ c ∈ m := by
  induction m with
  | nil => simp [Memory.insert]
  | cons d m ih =>
    obtain ⟨k', v'⟩ := d
    by_cases hlt : k < k'
    · simp [Memory.insert, hlt]
    · simp only [Memory.insert, hlt, if_false, List.mem_cons, ih]
      tauto

theorem Memory.wf_insert {m : Memory} (h : m.wf) {k : Nat} {v : Byte} (hk : k < Config.memSize)
    (hv : v ≠ Config.memFill) (hnew : ∀ c ∈ m, c.1 ≠ k) : (Memory.insert k v m).wf := by
  refine ⟨?_, fun c hc => ?_⟩
  · obtain ⟨hp, -⟩ := h
    induction m with
    | nil => simp [Memory.insert]
    | cons d m ih =>
      obtain ⟨k', v'⟩ := d
      obtain ⟨hd, hp'⟩ := List.pairwise_cons.1 hp
      by_cases hlt : k < k'
      · rw [Memory.insert, if_pos hlt, List.pairwise_cons]
        refine ⟨fun c hc => ?_, hp⟩
        rcases List.mem_cons.1 hc with rfl | hc
        · exact hlt
        · exact hlt.trans (hd c hc)
      · have hne : k' ≠ k := hnew (k', v') (by simp)
        rw [Memory.insert, if_neg hlt, List.pairwise_cons]
        refine ⟨fun c hc => ?_, ih (fun c hc => hnew c (by simp [hc])) hp'⟩
        rcases Memory.mem_insert.1 hc with rfl | hc
        · show k' < k
          omega
        · exact hd c hc
  · rcases Memory.mem_insert.1 hc with rfl | hc
    · exact ⟨hk, hv⟩
    · exact h.2 c hc

/-- Every write keeps the canonical form. -/
theorem Memory.wf_write {m : Memory} (h : m.wf) (a v : Byte) : (m.write a v).wf := by
  unfold Memory.write
  split
  · exact Memory.wf_erase h _
  · rename_i hv
    exact Memory.wf_insert (Memory.wf_erase h _) a.isLt hv fun c hc => (Memory.mem_erase.1 hc).2

/-- Loading bytes keeps the canonical form. -/
theorem Memory.wf_writeAll {m : Memory} (h : m.wf) (a : Byte) (vs : List Byte) : (m.writeAll a vs).wf := by
  induction vs generalizing m a with
  | nil => exact h
  | cons v vs ih => exact ih (Memory.wf_write h a v) (a + 1)

/-- In a canonical memory a listed cell is what its number reads as. -/
theorem Memory.lookup_of_mem {m : Memory} (h : m.wf) {c : Host.Cell} (hc : c ∈ m) : m.lookup c.1 = c.2 := by
  obtain ⟨hp, -⟩ := h
  induction m with
  | nil => simp at hc
  | cons d m ih =>
    obtain ⟨k', v'⟩ := d
    obtain ⟨hd, hp'⟩ := List.pairwise_cons.1 hp
    rcases List.mem_cons.1 hc with rfl | hc
    · simp [Memory.lookup]
    · have hne : k' ≠ c.1 := (hd c hc).ne
      simpa [Memory.lookup, hne] using ih hc hp'

/-- A number that no cell lists reads as the fill value. -/
theorem Memory.lookup_of_not_mem {m : Memory} {k : Nat} (h : ∀ c ∈ m, c.1 ≠ k) : m.lookup k = Config.memFill := by
  induction m with
  | nil => rfl
  | cons d m ih =>
    obtain ⟨k', v'⟩ := d
    have hne : k' ≠ k := h (k', v') (by simp)
    simpa [Memory.lookup, hne] using ih fun c hc => h c (by simp [hc])

end Sys2Proof.Machine
end

