-- ==== Sys2Proof/Laws/State.lean ====
section
/-! SUPPORT. One lemma per field of State per update, and how registers read after each update. -/

namespace Sys2Proof.Machine

variable (s : State)

@[simp] theorem State.setReg_regs (r : Reg) (v : Byte) : (s.setReg r v).regs = s.regs.set r.val v := rfl
@[simp] theorem State.setReg_pc (r : Reg) (v : Byte) : (s.setReg r v).pc = s.pc := rfl
@[simp] theorem State.setReg_fl (r : Reg) (v : Byte) : (s.setReg r v).fl = s.fl := rfl
@[simp] theorem State.setReg_running (r : Reg) (v : Byte) : (s.setReg r v).running = s.running := rfl
@[simp] theorem State.setReg_fault (r : Reg) (v : Byte) : (s.setReg r v).fault = s.fault := rfl
@[simp] theorem State.setReg_mem (r : Reg) (v : Byte) : (s.setReg r v).mem = s.mem := rfl
@[simp] theorem State.setReg_out (r : Reg) (v : Byte) : (s.setReg r v).out = s.out := rfl

@[simp] theorem State.jump_regs (p : Byte) : (s.jump p).regs = s.regs := rfl
@[simp] theorem State.jump_pc (p : Byte) : (s.jump p).pc = p := rfl
@[simp] theorem State.jump_fl (p : Byte) : (s.jump p).fl = s.fl := rfl
@[simp] theorem State.jump_running (p : Byte) : (s.jump p).running = s.running := rfl
@[simp] theorem State.jump_fault (p : Byte) : (s.jump p).fault = s.fault := rfl
@[simp] theorem State.jump_mem (p : Byte) : (s.jump p).mem = s.mem := rfl
@[simp] theorem State.jump_out (p : Byte) : (s.jump p).out = s.out := rfl

@[simp] theorem State.advance_regs (n : Byte) : (s.advance n).regs = s.regs := rfl
@[simp] theorem State.advance_pc (n : Byte) : (s.advance n).pc = s.pc + n := rfl
@[simp] theorem State.advance_fl (n : Byte) : (s.advance n).fl = s.fl := rfl
@[simp] theorem State.advance_running (n : Byte) : (s.advance n).running = s.running := rfl
@[simp] theorem State.advance_fault (n : Byte) : (s.advance n).fault = s.fault := rfl
@[simp] theorem State.advance_mem (n : Byte) : (s.advance n).mem = s.mem := rfl
@[simp] theorem State.advance_out (n : Byte) : (s.advance n).out = s.out := rfl

@[simp] theorem State.setFlag_regs (f : Flag) : (s.setFlag f).regs = s.regs := rfl
@[simp] theorem State.setFlag_pc (f : Flag) : (s.setFlag f).pc = s.pc := rfl
@[simp] theorem State.setFlag_fl (f : Flag) : (s.setFlag f).fl = f := rfl
@[simp] theorem State.setFlag_running (f : Flag) : (s.setFlag f).running = s.running := rfl
@[simp] theorem State.setFlag_fault (f : Flag) : (s.setFlag f).fault = s.fault := rfl
@[simp] theorem State.setFlag_mem (f : Flag) : (s.setFlag f).mem = s.mem := rfl
@[simp] theorem State.setFlag_out (f : Flag) : (s.setFlag f).out = s.out := rfl

@[simp] theorem State.halt_regs : (s.halt).regs = s.regs := rfl
@[simp] theorem State.halt_pc : (s.halt).pc = s.pc := rfl
@[simp] theorem State.halt_fl : (s.halt).fl = s.fl := rfl
@[simp] theorem State.halt_running : (s.halt).running = false := rfl
@[simp] theorem State.halt_fault : (s.halt).fault = s.fault := rfl
@[simp] theorem State.halt_mem : (s.halt).mem = s.mem := rfl
@[simp] theorem State.halt_out : (s.halt).out = s.out := rfl

@[simp] theorem State.store_regs (a v : Byte) : (s.store a v).regs = s.regs := rfl
@[simp] theorem State.store_pc (a v : Byte) : (s.store a v).pc = s.pc := rfl
@[simp] theorem State.store_fl (a v : Byte) : (s.store a v).fl = s.fl := rfl
@[simp] theorem State.store_running (a v : Byte) : (s.store a v).running = s.running := rfl
@[simp] theorem State.store_fault (a v : Byte) : (s.store a v).fault = s.fault := rfl
@[simp] theorem State.store_mem (a v : Byte) : (s.store a v).mem = s.mem.write a v := rfl
@[simp] theorem State.store_out (a v : Byte) : (s.store a v).out = s.out := rfl

@[simp] theorem State.output_regs (v : Byte) : (s.output v).regs = s.regs := rfl
@[simp] theorem State.output_pc (v : Byte) : (s.output v).pc = s.pc := rfl
@[simp] theorem State.output_fl (v : Byte) : (s.output v).fl = s.fl := rfl
@[simp] theorem State.output_running (v : Byte) : (s.output v).running = s.running := rfl
@[simp] theorem State.output_fault (v : Byte) : (s.output v).fault = s.fault := rfl
@[simp] theorem State.output_mem (v : Byte) : (s.output v).mem = s.mem := rfl
@[simp] theorem State.output_out (v : Byte) : (s.output v).out = s.out ++ [v] := rfl

@[simp] theorem State.raise_regs (e : FaultCause) : (s.raise e).regs = s.regs := rfl
@[simp] theorem State.raise_pc (e : FaultCause) : (s.raise e).pc = s.pc := rfl
@[simp] theorem State.raise_fl (e : FaultCause) : (s.raise e).fl = s.fl := rfl
@[simp] theorem State.raise_running (e : FaultCause) : (s.raise e).running = s.running := rfl
@[simp] theorem State.raise_fault (e : FaultCause) : (s.raise e).fault = e := rfl
@[simp] theorem State.raise_mem (e : FaultCause) : (s.raise e).mem = s.mem := rfl
@[simp] theorem State.raise_out (e : FaultCause) : (s.raise e).out = s.out := rfl

@[simp] theorem State.decSp_regs : (s.decSp).regs = s.regs.set 7 (s.reg 7 - 1) := rfl
@[simp] theorem State.decSp_pc : (s.decSp).pc = s.pc := rfl
@[simp] theorem State.decSp_fl : (s.decSp).fl = s.fl := rfl
@[simp] theorem State.decSp_running : (s.decSp).running = s.running := rfl
@[simp] theorem State.decSp_fault : (s.decSp).fault = s.fault := rfl
@[simp] theorem State.decSp_mem : (s.decSp).mem = s.mem := rfl
@[simp] theorem State.decSp_out : (s.decSp).out = s.out := rfl

@[simp] theorem State.incSp_regs : (s.incSp).regs = s.regs.set 7 (s.reg 7 + 1) := rfl
@[simp] theorem State.incSp_pc : (s.incSp).pc = s.pc := rfl
@[simp] theorem State.incSp_fl : (s.incSp).fl = s.fl := rfl
@[simp] theorem State.incSp_running : (s.incSp).running = s.running := rfl
@[simp] theorem State.incSp_fault : (s.incSp).fault = s.fault := rfl
@[simp] theorem State.incSp_mem : (s.incSp).mem = s.mem := rfl
@[simp] theorem State.incSp_out : (s.incSp).out = s.out := rfl

@[simp] theorem State.storeTop_regs (v : Byte) : (s.storeTop v).regs = s.regs := rfl
@[simp] theorem State.storeTop_pc (v : Byte) : (s.storeTop v).pc = s.pc := rfl
@[simp] theorem State.storeTop_fl (v : Byte) : (s.storeTop v).fl = s.fl := rfl
@[simp] theorem State.storeTop_running (v : Byte) : (s.storeTop v).running = s.running := rfl
@[simp] theorem State.storeTop_fault (v : Byte) : (s.storeTop v).fault = s.fault := rfl
@[simp] theorem State.storeTop_mem (v : Byte) : (s.storeTop v).mem = s.mem.write (s.reg 7) v := rfl
@[simp] theorem State.storeTop_out (v : Byte) : (s.storeTop v).out = s.out := rfl

/-! Register reads. An update that writes no register leaves every register as it is. -/

@[simp] theorem State.jump_reg (p : Byte) (q : Reg) : (s.jump p).reg q = s.reg q := rfl
@[simp] theorem State.advance_reg (n : Byte) (q : Reg) : (s.advance n).reg q = s.reg q := rfl
@[simp] theorem State.setFlag_reg (f : Flag) (q : Reg) : (s.setFlag f).reg q = s.reg q := rfl
@[simp] theorem State.halt_reg (q : Reg) : (s.halt).reg q = s.reg q := rfl
@[simp] theorem State.store_reg (a v : Byte) (q : Reg) : (s.store a v).reg q = s.reg q := rfl
@[simp] theorem State.output_reg (v : Byte) (q : Reg) : (s.output v).reg q = s.reg q := rfl
@[simp] theorem State.raise_reg (e : FaultCause) (q : Reg) : (s.raise e).reg q = s.reg q := rfl
@[simp] theorem State.storeTop_reg (v : Byte) (q : Reg) : (s.storeTop v).reg q = s.reg q := rfl

theorem State.setReg_reg (r : Reg) (v : Byte) (q : Reg) :
    (s.setReg r v).reg q = if q = r then v else s.reg q := by
  simp only [State.reg, State.setReg, Vector.getElem_set, Fin.ext_iff, eq_comm]

@[simp] theorem State.setReg_reg_same (r : Reg) (v : Byte) : (s.setReg r v).reg r = v := by
  simp [State.setReg_reg]

theorem State.setReg_reg_other {r q : Reg} (h : q ≠ r) (v : Byte) : (s.setReg r v).reg q = s.reg q := by
  simp [State.setReg_reg, h]

theorem State.decSp_reg (q : Reg) :
    s.decSp.reg q = if q = 7 then s.reg 7 - 1 else s.reg q :=
  s.setReg_reg _ _ q

theorem State.incSp_reg (q : Reg) :
    s.incSp.reg q = if q = 7 then s.reg 7 + 1 else s.reg q :=
  s.setReg_reg _ _ q

@[simp] theorem State.sp_eq : s.sp = s.reg 7 := rfl

@[simp] theorem State.top_eq : s.top = s.mem.read (s.reg 7) := rfl

@[simp] theorem State.decSp_reg_sp : s.decSp.reg 7 = s.reg 7 - 1 := by simp [State.decSp_reg]

@[simp] theorem State.incSp_reg_sp : s.incSp.reg 7 = s.reg 7 + 1 := by simp [State.incSp_reg]

/-- Two states are equal when every field is; the registers are compared one by one. -/
theorem State.ext_reg {s t : State} (hr : ∀ r, s.reg r = t.reg r) (hpc : s.pc = t.pc) (hfl : s.fl = t.fl)
    (hrun : s.running = t.running) (hf : s.fault = t.fault) (hm : s.mem = t.mem) (ho : s.out = t.out) : s = t := by
  have hregs : s.regs = t.regs := Vector.ext fun i hi => hr ⟨i, hi⟩
  cases s
  cases t
  simp_all

theorem State.stopped_eq_false : s.stopped = false ↔ s.running = true ∧ s.fault = .none := by
  simp [State.stopped]

theorem State.stopped_eq_true : s.stopped = true ↔ s.running = false ∨ s.fault ≠ .none := by
  simp [State.stopped]

end Sys2Proof.Machine
end

