-- ==== Sys2Proof/Laws/Exec.lean ====
section
/-! SUPPORT. What the operand checks and the step can do, said once. -/

namespace Sys2Proof.Machine

/-! ## Register operands (R54, R124) -/

@[simp] theorem regIndex_regByte (r : Reg) : regIndex (regByte r) = some r := by
  revert r
  decide

theorem regIndex_eq_some {b : Byte} {r : Reg} : regIndex b = some r ↔ b = regByte r := by
  revert b r
  decide

theorem regByte_inj {a b : Reg} : regByte a = regByte b ↔ a = b := by
  revert a b
  decide

theorem regByte_toNat (r : Reg) : (regByte r).toNat = r.val := by
  revert r
  decide

theorem regIndex_eq_none {b : Byte} : regIndex b = none ↔ 7 < b.toNat := by
  unfold regIndex
  split <;> simp <;> omega

@[simp] theorem withReg_regByte (a : Reg) (s : State) (k : Reg → State) : withReg (regByte a) s k = .next (k a) := by
  simp [withReg]

theorem withReg_bad {opa : Byte} (h : 7 < opa.toNat) (s : State) (k : Reg → State) :
    withReg opa s k = .next (s.raise .regIndex) := by
  simp [withReg, regIndex_eq_none.2 h]

@[simp] theorem withRegs_regByte (a b : Reg) (s : State) (k : Reg → Reg → State) :
    withRegs (regByte a) (regByte b) s k = .next (k a b) := by
  simp [withRegs]

theorem withRegs_bad {opa opb : Byte} (h : 7 < opa.toNat ∨ 7 < opb.toNat) (s : State) (k : Reg → Reg → State) :
    withRegs opa opb s k = .next (s.raise .regIndex) := by
  unfold withRegs
  rcases h with h | h
  · simp [regIndex_eq_none.2 h]
  · rw [regIndex_eq_none.2 h]
    cases regIndex opa <;> rfl

/-- Everything `withReg` can do. -/
theorem withReg_cases {opa : Byte} {s t : State} {k : Reg → State} (h : withReg opa s k = .next t) :
    (∃ a, opa = regByte a ∧ t = k a) ∨ (7 < opa.toNat ∧ t = s.raise .regIndex) := by
  unfold withReg at h
  split at h
  · rename_i a ha
    exact .inl ⟨a, regIndex_eq_some.1 ha, (Host.Outcome.next.inj h).symm⟩
  · rename_i ha
    exact .inr ⟨regIndex_eq_none.1 ha, (Host.Outcome.next.inj h).symm⟩

/-- Everything `withRegs` can do. -/
theorem withRegs_cases {opa opb : Byte} {s t : State} {k : Reg → Reg → State}
    (h : withRegs opa opb s k = .next t) :
    (∃ a b, opa = regByte a ∧ opb = regByte b ∧ t = k a b) ∨
      ((7 < opa.toNat ∨ 7 < opb.toNat) ∧ t = s.raise .regIndex) := by
  by_cases hbad : 7 < opa.toNat ∨ 7 < opb.toNat
  · rw [withRegs_bad hbad] at h
    exact .inr ⟨hbad, (Host.Outcome.next.inj h).symm⟩
  · obtain ⟨a, ha⟩ := Option.ne_none_iff_exists'.1 fun hn => hbad (.inl (regIndex_eq_none.1 hn))
    obtain ⟨b, hb⟩ := Option.ne_none_iff_exists'.1 fun hn => hbad (.inr (regIndex_eq_none.1 hn))
    rw [regIndex_eq_some.1 ha, regIndex_eq_some.1 hb, withRegs_regByte] at h
    exact .inl ⟨a, b, regIndex_eq_some.1 ha, regIndex_eq_some.1 hb, (Host.Outcome.next.inj h).symm⟩

theorem withReg_next (opa : Byte) (s : State) (k : Reg → State) : ∃ t, withReg opa s k = .next t := by
  unfold withReg
  split <;> exact ⟨_, rfl⟩

theorem withRegs_next (opa opb : Byte) (s : State) (k : Reg → Reg → State) : ∃ t, withRegs opa opb s k = .next t := by
  unfold withRegs
  split <;> exact ⟨_, rfl⟩

/-! ## The effect of each instruction whose register operands are in range -/

/-- The effect an instruction has apart from raising: what its rule writes, given the registers it names. -/
inductive Effect : Instr → State → State → Prop
  | add (a b : Reg) (s : State) : Effect (.add (regByte a) (regByte b)) s (addEffect a b s)
  | mul (a b : Reg) (s : State) : Effect (.mul (regByte a) (regByte b)) s (mulEffect a b s)
  | cmp (a b : Reg) (s : State) : Effect (.cmp (regByte a) (regByte b)) s (cmpEffect a b s)
  | hlt (s : State) : Effect .hlt s (hltEffect s)
  | ldi (a : Reg) (imm : Byte) (s : State) : Effect (.ldi (regByte a) imm) s (ldiEffect a imm s)
  | prn (a : Reg) (s : State) : Effect (.prn (regByte a)) s (prnEffect a s)
  | psh (a : Reg) (s : State) : Effect (.psh (regByte a)) s (pshEffect a s)
  | pop (a : Reg) (s : State) : Effect (.pop (regByte a)) s (popEffect a s)
  | call (a : Reg) (s : State) : Effect (.call (regByte a)) s (callEffect a s)
  | ret (s : State) : Effect .ret s (retEffect s)
  | jmp (a : Reg) (s : State) : Effect (.jmp (regByte a)) s (jumpEffect a s)
  | jeqTaken (a : Reg) (s : State) (h : jeqTaken s.fl = true) : Effect (.jeq (regByte a)) s (jumpEffect a s)
  | jeqNot (opa : Byte) (s : State) (h : jeqTaken s.fl = false) : Effect (.jeq opa) s (fallThrough s)
  | jneTaken (a : Reg) (s : State) (h : jneTaken s.fl = true) : Effect (.jne (regByte a)) s (jumpEffect a s)
  | jneNot (opa : Byte) (s : State) (h : jneTaken s.fl = false) : Effect (.jne opa) s (fallThrough s)

theorem jeqTaken_iff (f : Flag) : jeqTaken f = true ↔ f = .equal := by simp [jeqTaken]

theorem jneTaken_iff (f : Flag) : jneTaken f = true ↔ f ≠ .equal := by simp [jneTaken]

/-- An instruction with that effect answers it. -/
theorem exec_of_effect {i : Instr} {s t : State} (h : Effect i s t) : exec i s = .next t := by
  cases h <;>
    simp_all [exec, execAdd, execMul, execCmp, execHlt, execLdi, execPrn, execPsh, execPop, execCall, execRet, execJmp,
      execJeq, execJne]

/-- An effect raises nothing. -/
theorem Effect.fault_eq {i : Instr} {s t : State} (h : Effect i s t) : t.fault = s.fault := by
  cases h <;> rfl

/-- Everything an instruction can do: its effect, or the fatal error REG_INDEX and nothing else. -/
theorem exec_cases {i : Instr} {s t : State} (h : exec i s = .next t) :
    Effect i s t ∨ (t = s.raise .regIndex ∧ ∃ b ∈ i.registerOperands, 7 < b.toNat) := by
  have one {opa : Byte} {k : Reg → State} (h : withReg opa s k = .next t) (hop : i.registerOperands = [opa])
      (he : ∀ a, opa = regByte a → Effect i s (k a)) :
      Effect i s t ∨ (t = s.raise .regIndex ∧ ∃ b ∈ i.registerOperands, 7 < b.toNat) := by
    rcases withReg_cases h with ⟨a, ha, rfl⟩ | ⟨hbad, rfl⟩
    · exact .inl (he a ha)
    · exact .inr ⟨rfl, opa, by simp [hop], hbad⟩
  have two {opa opb : Byte} {k : Reg → Reg → State} (h : withRegs opa opb s k = .next t)
      (hop : i.registerOperands = [opa, opb]) (he : ∀ a b, opa = regByte a → opb = regByte b → Effect i s (k a b)) :
      Effect i s t ∨ (t = s.raise .regIndex ∧ ∃ b ∈ i.registerOperands, 7 < b.toNat) := by
    rcases withRegs_cases h with ⟨a, b, ha, hb, rfl⟩ | ⟨hbad | hbad, rfl⟩
    · exact .inl (he a b ha hb)
    · exact .inr ⟨rfl, opa, by simp [hop], hbad⟩
    · exact .inr ⟨rfl, opb, by simp [hop], hbad⟩
  cases i with
  | add opa opb => exact two h rfl fun a b ha hb => ha ▸ hb ▸ .add a b s
  | mul opa opb => exact two h rfl fun a b ha hb => ha ▸ hb ▸ .mul a b s
  | cmp opa opb => exact two h rfl fun a b ha hb => ha ▸ hb ▸ .cmp a b s
  | hlt => exact .inl (Host.Outcome.next.inj h ▸ .hlt s)
  | ldi opa imm => exact one h rfl fun a ha => ha ▸ .ldi a imm s
  | prn opa => exact one h rfl fun a ha => ha ▸ .prn a s
  | psh opa => exact one h rfl fun a ha => ha ▸ .psh a s
  | pop opa => exact one h rfl fun a ha => ha ▸ .pop a s
  | call opa => exact one h rfl fun a ha => ha ▸ .call a s
  | ret => exact .inl (Host.Outcome.next.inj h ▸ .ret s)
  | jmp opa => exact one h rfl fun a ha => ha ▸ .jmp a s
  | jeq opa =>
    cases hf : jeqTaken s.fl with
    | true =>
      simp only [exec, execJeq, hf, if_true] at h
      exact one h rfl fun a ha => ha ▸ .jeqTaken a s hf
    | false =>
      simp only [exec, execJeq, hf, Bool.false_eq_true, if_false] at h
      exact .inl (Host.Outcome.next.inj h ▸ .jeqNot opa s hf)
  | jne opa =>
    cases hf : jneTaken s.fl with
    | true =>
      simp only [exec, execJne, hf, if_true] at h
      exact one h rfl fun a ha => ha ▸ .jneTaken a s hf
    | false =>
      simp only [exec, execJne, hf, Bool.false_eq_true, if_false] at h
      exact .inl (Host.Outcome.next.inj h ▸ .jneNot opa s hf)

/-! ## The step -/

theorem step_of_stopped {s : State} (h : s.stopped = true) : step s = .next s := by
  simp [step, h]

theorem step_of_decode {s : State} {i : Instr} (h : s.stopped = false) (hd : s.fetchDecode = .ok i) :
    step s = exec i s := by
  simp [step, h, hd]

theorem step_of_illegal {s : State} {e : Illegal} (h : s.stopped = false) (hd : s.fetchDecode = .error e) :
    step s = .next (s.raise (causeOf e)) := by
  simp [step, h, hd]

/-- Everything a step can do: nothing, when the core is stopped; the effect of the decoded instruction; or one fatal error
and nothing else. -/
theorem step_cases {s t : State} (h : step s = .next t) :
    (s.stopped = true ∧ t = s) ∨
      (s.stopped = false ∧ ∃ i, s.fetchDecode = .ok i ∧ (Effect i s t ∨ t = s.raise .regIndex)) ∨
      (s.stopped = false ∧ ∃ e, s.fetchDecode = .error e ∧ t = s.raise (causeOf e)) := by
  cases hs : s.stopped with
  | true =>
    rw [step_of_stopped hs] at h
    exact .inl ⟨rfl, (Host.Outcome.next.inj h).symm⟩
  | false =>
    cases hd : s.fetchDecode with
    | ok i =>
      rw [step_of_decode hs hd] at h
      exact .inr (.inl ⟨rfl, i, rfl, (exec_cases h).imp_right And.left⟩)
    | error e =>
      rw [step_of_illegal hs hd] at h
      exact .inr (.inr ⟨rfl, e, rfl, (Host.Outcome.next.inj h).symm⟩)

/-- The three bytes `withFetchWord` stores are the ones the next step fetches. -/
theorem fetch_withFetchWord (s : State) (nbits w : Nat) :
    (s.withFetchWord nbits w).fetch = (tableByte nbits w 0, tableByte nbits w 1, tableByte nbits w 2) := by
  have h01 : ∀ p : Byte, p ≠ p + 1 := by decide
  have h02 : ∀ p : Byte, p ≠ p + 1 + 1 := by decide
  have h2 : ∀ p : Byte, p + 2 = p + 1 + 1 := by decide
  simp only [State.fetch, State.withFetchWord, Memory.writeAll, Memory.read_write, h2, h01, h02, if_true, if_false]

/-- The step after `withFetchWord` runs exactly the instruction the decoder reads from the word. -/
theorem step_withFetchWord {nbits w : Nat} {i : Instr} (s : State) (h : decodeTableWord nbits w = some i) :
    step (s.withFetchWord nbits w) = exec i (s.withFetchWord nbits w) := by
  refine step_of_decode rfl ?_
  simp only [State.fetchDecode, fetch_withFetchWord]
  unfold decodeTableWord at h
  split at h
  · rename_i j hj
    exact Option.some.inj h ▸ hj
  · cases h

/-! ## Runs -/

theorem runSteps_succ {s t : State} (h : step s = .next t) (k : Nat) : runSteps (k + 1) s = runSteps k t := by
  simp [runSteps, h]

theorem execAll_cons {i : Instr} {s t : State} (h : exec i s = .next t) (is : List Instr) :
    execAll (i :: is) s = execAll is t := by
  simp [execAll, h]

theorem execAll_append {xs : List Instr} {s t : State} (h : execAll xs s = .next t) (ys : List Instr) :
    execAll (xs ++ ys) s = execAll ys t := by
  induction xs generalizing s with
  | nil => rw [Host.Outcome.next.inj h, List.nil_append]
  | cons i is ih =>
    cases hi : exec i s with
    | next u =>
      rw [execAll_cons hi] at h
      rw [List.cons_append, execAll_cons hi, ih h]
    | fault r => cases r
    | refused r => simp [execAll, hi] at h

end Sys2Proof.Machine
end

