-- ==== Sys2Proof/Tests/Slice0.lean ====
section
/-! SUPPORT. The model's own tests. Expected results are those of spec/95_test_vectors.md or of the rule named; none is the
model's own answer. The last part shows, for every statement with hypotheses, data that meet them. -/

namespace Sys2Proof.Tests

open Sys2Proof.Machine

/-! ## Helpers -/

/-- The next state, if there is one. -/
def nextOf (o : Host.Outcome State Fault Refusal) : Option State :=
  match o with
  | .next t => some t
  | .fault _ => none
  | .refused _ => none

/-- The state after reset with bytes placed at `a`, and pc there. -/
def at_ (a : Byte) (bytes : List Byte) : State :=
  { State.reset with pc := a, mem := Memory.writeAll [] a bytes }

/-- The state after a step from `s`, read with `f`. -/
def stepView {α : Type} (s : State) (f : State → α) : Option α := (nextOf (step s)).map f

/-! ## Well-formedness: each check refuses an ill-formed term (R54) -/

theorem test_wf_add_right : (Instr.add 0 8).wellFormed = false := by decide
theorem test_wf_mul_left : (Instr.mul 8 0).wellFormed = false := by decide
theorem test_wf_cmp_right : (Instr.cmp 0 255).wellFormed = false := by decide
theorem test_wf_ldi : (Instr.ldi 8 5).wellFormed = false := by decide
theorem test_wf_prn : (Instr.prn 9).wellFormed = false := by decide
theorem test_wf_psh : (Instr.psh 8).wellFormed = false := by decide
theorem test_wf_pop : (Instr.pop 255).wellFormed = false := by decide
theorem test_wf_call : (Instr.call 8).wellFormed = false := by decide
theorem test_wf_jmp : (Instr.jmp 8).wellFormed = false := by decide
theorem test_wf_jeq : (Instr.jeq 9).wellFormed = false := by decide
theorem test_wf_jne : (Instr.jne 9).wellFormed = false := by decide
theorem test_wf_accepts : ([.add 7 7, .ldi 7 255, .hlt, .ret, .jne 0] : List Instr).all Instr.wellFormed = true := by decide

/-! ## Decoding: words written out from the table of R56 (binary column); illegal bytes of vector B1 -/

theorem test_decode_add : decodeBytes [0b10100000#8, 0x00#8, 0x01#8] = .ok (.add 0 1) := rfl
theorem test_decode_mul : decodeBytes [0b10100010#8, 0x00#8, 0x01#8] = .ok (.mul 0 1) := rfl
theorem test_decode_cmp : decodeBytes [0b10100111#8, 0x00#8, 0x02#8] = .ok (.cmp 0 2) := rfl
theorem test_decode_hlt : decodeBytes [0b00000001#8, 0x47#8, 0x00#8] = .ok .hlt := rfl
theorem test_decode_ldi : decodeBytes [0b10000010#8, 0x00#8, 0x08#8] = .ok (.ldi 0 8) := rfl
theorem test_decode_prn : decodeBytes [0b01000111#8, 0x04#8, 0x01#8] = .ok (.prn 4) := rfl
theorem test_decode_psh : decodeBytes [0b01000101#8, 0x01#8, 0x46#8] = .ok (.psh 1) := rfl
theorem test_decode_pop : decodeBytes [0b01000110#8, 0x01#8, 0xA7#8] = .ok (.pop 1) := rfl
theorem test_decode_call : decodeBytes [0b01010000#8, 0x01#8, 0x01#8] = .ok (.call 1) := rfl
theorem test_decode_ret : decodeBytes [0b00010001#8, 0xFF#8, 0xFF#8] = .ok .ret := rfl
theorem test_decode_jmp : decodeBytes [0b01010100#8, 0x03#8] = .ok (.jmp 3) := rfl
theorem test_decode_jeq : decodeBytes [0b01010101#8, 0x09#8] = .ok (.jeq 9) := rfl
theorem test_decode_jne : decodeBytes [0b01010110#8, 0x03#8, 0x47#8] = .ok (.jne 3) := rfl

/-- The byte is rejected as `e`. -/
def rejectedAs (e : Illegal) (b : Byte) : Bool :=
  match decode b 0 0 with
  | .error e' => e' = e
  | .ok _ => false

theorem test_unknown_opcodes :
    [0x00, 0x02, 0x10, 0x44, 0x48, 0x57, 0x80, 0x83, 0xC0].all (rejectedAs .unknownOpcode) = true := by decide
theorem test_unsupported_alu_ops :
    [0x20, 0x65, 0xA1, 0xA3, 0xA8, 0xE0, 0xFF].all (rejectedAs .unsupportedAluOp) = true := by decide

/-- The opcode table's numbering: the opcode byte is the low byte, operand bytes follow (B1, R50). -/
theorem test_table_words : decodeTableWord 8 0x11 = some .ret ∧ decodeTableWord 24 0x080082 = some (.ldi 0 8) ∧
    decodeTableWord 8 0x45 = some (.psh 0) ∧ decodeTableWord 8 0x00 = none := by decide

/-! ## Memory: canonical form and byte reads -/

theorem test_memory_write_zero_unlists : Memory.write (Memory.write [] 0xF3 0x11) 0xF3 0x00 = [] := by decide
theorem test_memory_sorted : Memory.writeAll [] 0xFE [1, 2, 3] = [(0, 3), (0xFE, 1), (0xFF, 2)] := by decide

/-! ## One step of each instruction (vectors B2 to B10, and the rules' examples) -/

/-- B3: 200 + 100 = 44; R81's example. -/
theorem test_add : stepView ((at_ 0x10 [0xA0, 0x00, 0x01]).setReg 0 0xC8 |>.setReg 1 0x64)
    (fun t => (t.reg 0, t.reg 1, t.pc)) = some (0x2C, 0x64, 0x13) := by decide
/-- B3: ADD R7 R0 moves the stack pointer. -/
theorem test_add_sp : stepView ((at_ 0 [0xA0, 0x07, 0x00]).setReg 0 0x10) (·.reg 7) = some 0x04 := by decide
/-- B3: 200 * 100 = 20000 = 0x4E20. -/
theorem test_mul : stepView ((at_ 0 [0xA2, 0x00, 0x01]).setReg 0 0xC8 |>.setReg 1 0x64)
    (fun t => (t.reg 0, t.reg 1)) = some (0x20, 0x64) := by decide
/-- B3: 255 * 255 keeps 0x01. -/
theorem test_mul_square : stepView ((at_ 0 [0xA2, 0x00, 0x00]).setReg 0 0xFF) (·.reg 0) = some 0x01 := by decide
/-- B4: 0x80 against 0x7F is GREATER, unsigned. -/
theorem test_cmp_unsigned : stepView ((at_ 0 [0xA7, 0x00, 0x01]).setReg 0 0x80 |>.setReg 1 0x7F) (·.fl) = some .greater := by decide
/-- B4: 0 against 255 is LESS. -/
theorem test_cmp_less : stepView ((at_ 0 [0xA7, 0x00, 0x01]).setReg 1 0xFF) (fun t => (t.fl, t.pc)) = some (.less, 3) := by decide
/-- R91: HLT at 0xFF leaves pc = 0x00. -/
theorem test_hlt : stepView (at_ 0xFF [0x01]) (fun t => (t.running, t.pc)) = some (false, 0x00) := by decide
/-- B5: LDI R7 0x80. -/
theorem test_ldi : stepView (at_ 0 [0x82, 0x07, 0x80]) (fun t => (t.reg 7, t.pc)) = some (0x80, 3) := by decide
/-- B5: LDI with index 8 raises REG_INDEX. -/
theorem test_ldi_index : stepView (at_ 0 [0x82, 0x08, 0x05]) (fun t => (t.fault, t.pc)) = some (.regIndex, 0) := by decide
/-- B5: PRN R7 from reset outputs 244. -/
theorem test_prn : stepView (at_ 0 [0x47, 0x07]) (fun t => (t.out, t.pc)) = some ([244], 2) := by decide
/-- B6: PSH R7 pushes the decremented value. -/
theorem test_psh_sp : stepView (at_ 0 [0x45, 0x07]) (fun t => (t.reg 7, t.mem.read 0xF3)) = some (0xF3, 0xF3) := by decide
/-- B6: a push at x[7] = 0x00 writes cell 0xFF. -/
theorem test_psh_wraps : stepView ((at_ 0x20 [0x45, 0x00]).setReg 0 0xAB |>.setReg 7 0x00)
    (fun t => (t.reg 7, t.mem.read 0xFF, t.pc)) = some (0xFF, 0xAB, 0x22) := by decide
/-- B6: POP R7 leaves the popped value plus one. -/
theorem test_pop_sp : stepView ((at_ 0 [0x46, 0x07]).setReg 7 0xF3 |>.store 0xF3 0x30) (·.reg 7) = some 0x31 := by decide
/-- B6: a pop leaves the cell as it is. -/
theorem test_pop : stepView ((at_ 0x0A [0x46, 0x01]).setReg 7 0xF3 |>.store 0xF3 0x11)
    (fun t => (t.reg 1, t.reg 7, t.mem.read 0xF3, t.pc)) = some (0x11, 0xF4, 0x11, 0x0C) := by decide
/-- B7: a CALL at 0xFF takes its operand from cell 0x00 and saves 0x01. -/
theorem test_call_wraps : stepView ((at_ 0xFF [0x50, 0x01]).setReg 1 0x30)
    (fun t => (t.pc, t.reg 7, t.mem.read 0xF3)) = some (0x30, 0xF3, 0x01) := by decide
/-- B7: CALL R7 goes to the cell that holds the return address. -/
theorem test_call_sp : stepView (at_ 0 [0x50, 0x07]) (fun t => (t.pc, t.mem.read 0xF3)) = some (0xF3, 0x02) := by decide
/-- B7: RET. -/
theorem test_ret : stepView ((at_ 0x0B [0x11]).setReg 7 0xF3 |>.store 0xF3 0x08)
    (fun t => (t.pc, t.reg 7)) = some (0x08, 0xF4) := by decide
/-- R113's example. -/
theorem test_jmp : stepView ((at_ 0x18 [0x54, 0x03]).setReg 3 0x0F) (·.pc) = some 0x0F := by decide
/-- R114's example, taken. -/
theorem test_jeq_taken : stepView ((at_ 0x14 [0x55, 0x02]).setReg 2 0x1A |>.setFlag .equal) (·.pc) = some 0x1A := by decide
/-- B8: a JEQ with index 9 that is not taken is no error. -/
theorem test_jeq_not_taken : stepView (at_ 0 [0x55, 0x09]) (fun t => (t.pc, t.fault)) = some (2, .none) := by decide
/-- R115's example, taken on LESS. -/
theorem test_jne_taken : stepView ((at_ 0x18 [0x56, 0x03]).setReg 3 0x0F |>.setFlag .less) (·.pc) = some 0x0F := by decide
/-- B8: a JNE with index 9 that is taken raises REG_INDEX. -/
theorem test_jne_index : stepView (at_ 0 [0x56, 0x09]) (fun t => (t.pc, t.fault)) = some (0, .regIndex) := by decide
/-- P6: an illegal opcode stops at its own address, running still true. -/
theorem test_illegal_opcode : stepView (at_ 5 [0x00, 0x01]) (fun t => (t.pc, t.fault, t.running)) = some (5, .unknownOpcode, true) := by decide
/-- B9: an LDI at 0xFE takes its immediate from cell 0x00. -/
theorem test_fetch_wraps : stepView (at_ 0xFE [0x82, 0x01, 0x82]) (fun t => (t.reg 1, t.pc)) = some (0x82, 0x01) := by decide

/-! ## Data that meet the hypotheses of the statements

Each theorem is named after its statement. Statements not listed have no hypotheses. -/

theorem witness_DecodeAndEncodeAgree : decode 0xA0 1 2 = .ok (.add 1 2) := rfl

/-- An image of exactly 256 bytes, and the instruction at its very end. -/
theorem witness_LoadedProgramIsFetched : ∃ (before : List Instr) (s t : State),
    (encodeAll (before ++ .hlt :: [])).length ≤ 256 ∧ s.load (encodeAll (before ++ .hlt :: [])) = .next t ∧
    t.pc = BitVec.ofNat 8 (encodeAll before).length ∧ (encodeAll (before ++ .hlt :: [])).length = 256 :=
  ⟨List.replicate 255 .hlt, State.reset.jump 255, _, by decide +kernel, if_pos (by decide +kernel), by decide +kernel, by decide +kernel⟩

theorem witness_StepRunsDecodedInstruction : (at_ 0xFE [0x82, 1, 2]).running = true ∧ (at_ 0xFE [0x82, 1, 2]).fault = .none ∧
    decode ((at_ 0xFE [0x82, 1, 2]).mem.read 0xFE) ((at_ 0xFE [0x82, 1, 2]).mem.read (0xFE + 1))
      ((at_ 0xFE [0x82, 1, 2]).mem.read (0xFE + 2)) = .ok (.ldi 1 2) := ⟨rfl, rfl, rfl⟩

theorem witness_HaltedAndFaultedAreAbsorbing : State.reset.halt.running = false ∧ (State.reset.raise .regIndex).fault ≠ .none := by
  decide

theorem witness_CleanEndMeansNoFatalError : ∃ t, runSteps 2 (at_ 0 [0x01]) = .next t ∧ t.halted := ⟨_, rfl, rfl, rfl⟩

/-- A state in which the instruction at pc, of opcode `op` and register operand `r`, is stepped with the flag `f`. -/
theorem witness_PcTakesTargetOrNetDisplacement :
    ([(0x54, 3, .less, .jmp 3), (0x50, 7, .less, .call 7), (0x50, 0, .less, .call 0), (0x11, 0, .less, .ret),
      (0x55, 7, .equal, .jeq 7), (0x56, 0, .greater, .jne 0), (0x56, 0, .less, .jne 0), (0x55, 9, .less, .jeq 9),
      (0x56, 255, .equal, .jne 255), (0xA0, 7, .less, .add 7 0), (0x01, 0, .less, .hlt), (0x45, 7, .less, .psh 7)] :
      List (Byte × Byte × Sys2Proof.Machine.Flag × Instr)).all (fun (op, r, f, i) =>
        let s := (at_ 0xFF [op, r]).setFlag f
        s.running && s.fault = .none && (match s.fetchDecode with | .ok j => j = i | .error _ => false) &&
          (match step s with | .next t => t.fault = .none | _ => false)) = true := by
  decide +kernel

/-- An ADD at 0xFE, a CMP and a CALL at 0xFF, an LDI at each, a PRN at 0xFF: running, and the bytes decode. -/
theorem witness_FetchWrapsAtTheTopOfMemory :
    ([at_ 0xFE [0xA0, 7, 0], at_ 0xFF [0xA7, 7, 0], at_ 0xFF [0x50, 7], at_ 0xFE [0x82, 7, 5], at_ 0xFF [0x82, 7, 5],
      at_ 0xFF [0x47, 7]].all fun s => s.running && s.fault = .none) = true ∧
    decode ((at_ 0xFE [0xA0, 7, 0]).mem.read 0xFE) ((at_ 0xFE [0xA0, 7, 0]).mem.read 0xFF)
      ((at_ 0xFE [0xA0, 7, 0]).mem.read 0x00) = .ok (.add 7 0) ∧
    decode ((at_ 0xFF [0xA7, 7, 0]).mem.read 0xFF) ((at_ 0xFF [0xA7, 7, 0]).mem.read 0x00)
      ((at_ 0xFF [0xA7, 7, 0]).mem.read 0x01) = .ok (.cmp 7 0) ∧
    decode ((at_ 0xFF [0x50, 7]).mem.read 0xFF) ((at_ 0xFF [0x50, 7]).mem.read 0x00)
      ((at_ 0xFF [0x50, 7]).mem.read 0x01) = .ok (.call 7) ∧
    (at_ 0xFE [0x82, 7, 5]).mem.read 0xFE = 0x82 ∧ (at_ 0xFE [0x82, 7, 5]).mem.read 0xFF = regByte 7 ∧
    (at_ 0xFF [0x82, 7, 5]).mem.read 0xFF = 0x82 ∧ (at_ 0xFF [0x82, 7, 5]).mem.read 0x00 = regByte 7 ∧
    (at_ 0xFF [0x47, 7]).mem.read 0xFF = 0x47 ∧ (at_ 0xFF [0x47, 7]).mem.read 0x00 = regByte 7 :=
  ⟨by decide, rfl, rfl, rfl, by decide, by decide, by decide, by decide, by decide, by decide⟩

theorem witness_EveryStepKeepsInv : (at_ 0 [0x45, 0x07]).mem.wf ∧ (at_ 0 [0x45, 0x07]).running = true ∧
    ∃ t, step (at_ 0 [0x45, 0x07]) = .next t := ⟨by decide, rfl, _, rfl⟩

theorem witness_CanonicalMemoriesThatReadAlikeAreEqual :
    Memory.wf [(0, 1), (255, 8)] ∧ ∀ a : Byte, Memory.read [(0, 1), (255, 8)] a = Memory.read [(0, 1), (255, 8)] a :=
  ⟨by decide, fun _ => rfl⟩

theorem witness_LoadWritesTheImageFromZero : (List.replicate 256 (1 : Byte)).length ≤ 256 ∧
    256 < (List.replicate 257 (1 : Byte)).length ∧ Memory.wf [] := by decide +kernel

/-- The bad register operands of ADD, MUL, CMP (either side), LDI, PRN, PSH, POP, CALL, JMP, at the boundary. -/
theorem witness_bad_index : 7 < (8 : Byte).toNat ∧ ¬ 7 < (7 : Byte).toNat := by decide

theorem witness_AddWritesTheSumModulo256 : 7 < (8 : Byte).toNat ∨ 7 < (0 : Byte).toNat := by decide
theorem witness_MulWritesTheLowByteOfTheProduct : 7 < (0 : Byte).toNat ∨ 7 < (8 : Byte).toNat := by decide
theorem witness_CmpSetsTheFlagUnsigned : 7 < (255 : Byte).toNat ∨ 7 < (8 : Byte).toNat := by decide
theorem witness_LdiLoadsTheImmediate : 7 < (8 : Byte).toNat := by decide
theorem witness_PrnOutputsTheRegister : 7 < (8 : Byte).toNat := by decide
theorem witness_PshStoresBelowTheStackPointer : 7 < (8 : Byte).toNat ∧ State.reset.decSp.sp = 0xF3 := by decide
theorem witness_PopLoadsFromTheStackPointer : 7 < (8 : Byte).toNat ∧ (6 : Reg) ≠ 7 := by decide
theorem witness_CallPushesTheReturnAddress : 7 < (8 : Byte).toNat ∧ State.reset.decSp.sp = 0xF3 := by decide
theorem witness_JmpGoesToTheRegister : 7 < (8 : Byte).toNat := by decide
theorem witness_JeqJumpsIffEqual : (State.reset.setFlag .equal).fl = .equal ∧ 7 < (8 : Byte).toNat ∧
    State.reset.fl ≠ .equal := by decide
theorem witness_JneJumpsIffNotEqual : (State.reset.fl = .greater ∨ State.reset.fl = .less) ∧ 7 < (8 : Byte).toNat ∧
    (State.reset.setFlag .less).fl = .less ∧ (State.reset.setFlag .equal).fl = .equal := by decide

/-- 256 pushes, and the first and the last of the pops after them. -/
theorem witness_PopUndoesPshLastInFirstOut : (0 : Reg) ≠ 7 ∧ (6 : Reg) ≠ 7 ∧
    7 ∉ List.replicate 256 (6 : Reg) ∧ 7 ∉ List.replicate 255 (0 : Reg) ∧ 7 ∉ ([] : List Reg) ∧
    (List.replicate 256 (6 : Reg)).length ≤ 256 ∧
    (List.replicate 255 (0 : Reg)).length < (List.replicate 256 (6 : Reg)).length ∧
    ([] : List Reg).length < (List.replicate 256 (6 : Reg)).length := by decide +kernel

theorem witness_StackPointerWrapsModulo256 : (State.reset.setReg 7 0x00).reg 7 = 0x00 ∧ (0 : Reg) ≠ 7 ∧
    (State.reset.setReg 7 0xFF).reg 7 = 0xFF := by decide

/-- An image of 243 bytes and an empty stack: room for exactly one push. -/
theorem witness_PushKeepsClearOfTheImage : 243 + (0 + 1) ≤ Config.spReset.toNat ∧ (State.reset.reg 7).toNat = 0xF4 - 0 ∧
    (∃ t, exec (.psh (regByte 7)) State.reset = .next t) ∧ (∃ t, exec (.call (regByte 7)) State.reset = .next t) :=
  ⟨by decide, by decide, ⟨_, rfl⟩, ⟨_, rfl⟩⟩

theorem witness_RetResumesAfterTheCallAtAnyDepth : (∃ t, exec (.call (regByte 1)) State.reset = .next t ∧
      ∃ u : State, u.reg 7 = t.reg 7 ∧ u.mem.read (t.reg 7) = t.mem.read (t.reg 7)) ∧
    0 < (List.replicate 256 (7 : Reg)).length ∧ (List.replicate 256 (7 : Reg)).length ≤ 256 :=
  ⟨⟨_, rfl, _, rfl, rfl⟩, by decide +kernel, by decide +kernel⟩

/-- Running states, of an opcode in each class and of none. -/
theorem witness_UnknownOpcodeRaisedExactly : (at_ 0 [0xC0]).running = true ∧ (at_ 0 [0xC0]).fault = .none ∧
    stepView (at_ 0 [0xC0]) (·.fault) = some .unknownOpcode ∧ stepView (at_ 0 [0x01]) (·.fault) = some .none := by decide
theorem witness_UnsupportedAluOpRaisedExactly : (at_ 0 [0xE0]).running = true ∧ (at_ 0 [0xE0]).fault = .none ∧
    stepView (at_ 0 [0xE0]) (·.fault) = some .unsupportedAluOp := by decide

theorem witness_RegIndexRaisedExactly : State.reset.fault = .none ∧ (∃ t, exec (.jne 8) State.reset = .next t ∧ t.fault = .regIndex) ∧
    ∃ t, exec (.jeq 8) State.reset = .next t ∧ t.fault = .none := ⟨rfl, ⟨_, rfl, rfl⟩, ⟨_, rfl, rfl⟩⟩

theorem witness_WellFormedInstructionsRaiseNothing : (Instr.ldi 7 255).wellFormed = true := by decide

theorem witness_FatalErrorsArePrecise : ∃ t, step (at_ 0x30 [0x45, 0x08]) = .next t ∧ t.fault ≠ .none ∧
    (at_ 0x30 [0x45, 0x08]).running = true ∧ (at_ 0x30 [0x45, 0x08]).fault = .none := ⟨_, rfl, by decide, rfl, rfl⟩

theorem witness_FaultIsStickyAndUnread : ∃ t, step (State.reset.raise .regIndex) = .next t ∧
    (State.reset.raise .regIndex).fault ≠ .none ∧ ∃ u, exec .hlt State.reset = .next u :=
  ⟨_, rfl, by decide, _, rfl⟩

theorem witness_FlagWrittenByCmpReadByJumps : (∃ t, exec (.cmp 0 0) State.reset = .next t ∧ t.fl ≠ State.reset.fl) ∧
    (∃ t, exec .hlt State.reset = .next t) ∧ State.reset.fl ≠ .equal ∧ Sys2Proof.Machine.Flag.less ≠ .equal :=
  ⟨⟨_, rfl, by decide⟩, ⟨_, rfl⟩, by decide, by decide⟩

theorem witness_GreaterAndLessAreIndistinguishable : State.reset.fl ≠ .equal ∧ Sys2Proof.Machine.Flag.less ≠ .equal ∧
    ∃ t, runSteps 2 (at_ 0 [0xA7, 0, 0, 0x01]) = .next t := ⟨by decide, by decide, _, rfl⟩

theorem witness_RunningClearedOnlyByHlt : State.reset.halt.running = false ∧ (∃ t, step State.reset.halt = .next t) ∧
    (∃ t, exec .hlt State.reset = .next t ∧ t.running ≠ State.reset.running) ∧
    ∃ t, step (at_ 0 [0x01]) = .next t ∧ t.running ≠ (at_ 0 [0x01]).running :=
  ⟨rfl, ⟨_, rfl⟩, ⟨_, rfl, by decide⟩, ⟨_, rfl, by decide⟩⟩

theorem witness_MemoryWrittenOnlyByPshAndCall : (∃ t, step (at_ 0 [0x45, 0x07]) = .next t ∧
      t.mem.read 0xF3 ≠ (at_ 0 [0x45, 0x07]).mem.read 0xF3) ∧
    ∃ t, step (at_ 0 [0x50, 0x00]) = .next t ∧ t.mem.read 0xF3 ≠ (at_ 0 [0x50, 0x00]).mem.read 0xF3 :=
  ⟨⟨_, rfl, by decide⟩, ⟨_, rfl, by decide⟩⟩

theorem witness_OutputOnlyGrowsByPrn : (∃ t, step (at_ 0 [0x47, 0x07]) = .next t ∧ t.out = [244]) ∧
    (∃ t, runSteps 3 (at_ 0 [0x47, 0x07, 0x01]) = .next t) ∧ ∃ t, exec (.prn 7) State.reset = .next t :=
  ⟨⟨_, rfl, by decide⟩, ⟨_, rfl⟩, ⟨_, rfl⟩⟩

/-- A PSH whose byte lands on its own opcode, its own operand, the next opcode and the next instruction's operand bytes; a CALL
through x[1] = x[7] -8 1 and a CALL R7, whose next opcode is the byte stored. -/
theorem witness_StoredByteIsFetchedNext :
    ([0xF3, 0xF2, 0xF1, 0xF0, 0xEF].all fun a =>
      let s := at_ a [0x45, 0x00]
      s.running && s.fault = .none && s.mem.read a = 0x45 && s.mem.read (a + 1) = regByte 0 && s.reg 7 - 1 = 0xF3) = true ∧
    ([at_ 0 [0x50, 0x01], at_ 0 [0x50, 0x07]].all fun s =>
      let s := s.setReg 1 0xF3
      s.running && s.fault = .none && s.mem.read 0 = 0x50 && s.reg 1 = s.reg 7 - 1) = true ∧
    (at_ 0 [0x50, 0x01]).mem.read (0 + 1) = regByte 1 ∧ (at_ 0 [0x50, 0x07]).mem.read (0 + 1) = regByte 7 := by decide

end Sys2Proof.Tests
end

section
/-! PROOFS. 10_state.md: what each instruction reads of the flag, the run flag, the fault register and the output, and which
instruction writes the flag (R17) and the run flag (R19). -/

namespace Sys2Proof.Machine

/-! ## Replacing what (almost) no instruction reads

The flag, the run flag, the fault register and the output are replaced all at once, so that one case analysis over the
instructions shows for the four of them that an instruction does not read them (the flag: but for JEQ and JNE). -/

/-- `s` with another flag, run flag, fault register and output. -/
def State.withFlagStatus (s : State) (f : Flag) (b : Bool) (e : FaultCause) (o : List Byte) : State :=
  { s with fl := f, running := b, fault := e, out := o }

/-- A field that held `x` in one run and `x'` in another, and now holds `y` and `y'`, was given one value in both or was
left alone in both. -/
def WrittenOrKept {α : Type} (x x' y y' : α) : Prop := y' = y ∨ (y = x ∧ y' = x')

theorem WrittenOrKept.eq {α : Type} {x y y' : α} (h : WrittenOrKept x x y y') : y' = y := by
  rcases h with h | ⟨rfl, rfl⟩
  · exact h
  · rfl

/-- `s` became `t` and `s'` became `u` by the same writes: the registers, pc and memory now agree, and each other field was
given one value in both or left alone in both; the output grew by the same values. -/
structure SameWrites (s s' t u : State) : Prop where
  regs : u.regs = t.regs
  pc : u.pc = t.pc
  mem : u.mem = t.mem
  fl : WrittenOrKept s.fl s'.fl t.fl u.fl
  running : WrittenOrKept s.running s'.running t.running u.running
  fault : WrittenOrKept s.fault s'.fault t.fault u.fault
  out : ∃ w, t.out = s.out ++ w ∧ u.out = s'.out ++ w

theorem SameWrites.reg_eq {s s' t u : State} (h : SameWrites s s' t u) (r : Reg) : u.reg r = t.reg r := by
  simp only [State.reg, h.regs]

theorem SameWrites.out_eq {s s' t u : State} (h : SameWrites s s' t u) (ho : s'.out = s.out) : u.out = t.out := by
  obtain ⟨w, ht, hu⟩ := h.out
  rw [hu, ht, ho]

section
variable {s t : State} {f : Flag} {b : Bool} {e : FaultCause} {o : List Byte} {opa opb : Byte}

/-- Writes to the registers, pc and memory alone are the same writes whatever the four replaced fields hold. -/
theorem SameWrites.of_kept (hfl : t.fl = s.fl) (hst : SameStatus s t) :
    SameWrites s (s.withFlagStatus f b e o) t (t.withFlagStatus f b e o) := by
  obtain ⟨hrun, hfault, hout⟩ := hst
  exact {
    regs := rfl
    pc := rfl
    mem := rfl
    fl := .inr ⟨hfl, rfl⟩
    running := .inr ⟨hrun, rfl⟩
    fault := .inr ⟨hfault, rfl⟩
    out := ⟨[], hout.trans (List.append_nil _).symm, (List.append_nil _).symm⟩ }

theorem raise_sameWrites (c : FaultCause) :
    SameWrites s (s.withFlagStatus f b e o) (s.raise c) ((s.withFlagStatus f b e o).raise c) :=
  { SameWrites.of_kept (s := s) (t := s) rfl ⟨rfl, rfl, rfl⟩ with fault := .inl rfl }

theorem cmpEffect_sameWrites (x y : Reg) :
    SameWrites s (s.withFlagStatus f b e o) (cmpEffect x y s) (cmpEffect x y (s.withFlagStatus f b e o)) :=
  { SameWrites.of_kept (s := s) (t := s.advance 3) rfl ⟨rfl, rfl, rfl⟩ with fl := .inl rfl }

theorem hltEffect_sameWrites :
    SameWrites s (s.withFlagStatus f b e o) (hltEffect s) (hltEffect (s.withFlagStatus f b e o)) :=
  { SameWrites.of_kept (s := s) (t := s.advance 1) rfl ⟨rfl, rfl, rfl⟩ with running := .inl rfl }

theorem prnEffect_sameWrites (x : Reg) :
    SameWrites s (s.withFlagStatus f b e o) (prnEffect x s) (prnEffect x (s.withFlagStatus f b e o)) :=
  { SameWrites.of_kept (s := s) (t := s.advance 2) rfl ⟨rfl, rfl, rfl⟩ with out := ⟨[s.reg x], rfl, rfl⟩ }

/-- The check of one register operand reads none of the four fields. -/
theorem withReg_sameWrites {k k' : Reg → State} (h : withReg opa s k = .next t)
    (hk : ∀ a, SameWrites s (s.withFlagStatus f b e o) (k a) (k' a)) :
    ∃ u, withReg opa (s.withFlagStatus f b e o) k' = .next u ∧ SameWrites s (s.withFlagStatus f b e o) t u := by
  rcases withReg_cases h with ⟨a, rfl, rfl⟩ | ⟨hbad, rfl⟩
  · exact ⟨_, withReg_regByte a _ k', hk a⟩
  · exact ⟨_, withReg_bad hbad _ k', raise_sameWrites .regIndex⟩

/-- The check of two register operands reads none of the four fields. -/
theorem withRegs_sameWrites {k k' : Reg → Reg → State} (h : withRegs opa opb s k = .next t)
    (hk : ∀ x y, SameWrites s (s.withFlagStatus f b e o) (k x y) (k' x y)) :
    ∃ u, withRegs opa opb (s.withFlagStatus f b e o) k' = .next u ∧
      SameWrites s (s.withFlagStatus f b e o) t u := by
  rcases withRegs_cases h with ⟨x, y, rfl, rfl, rfl⟩ | ⟨hbad, rfl⟩
  · exact ⟨_, withRegs_regByte x y _ k', hk x y⟩
  · exact ⟨_, withRegs_bad hbad _ k', raise_sameWrites .regIndex⟩

/-- A conditional jump whose condition is `c` reads none of the four fields. -/
theorem condJump_sameWrites {c : Bool}
    (h : (if c then withReg opa s fun a => jumpEffect a s else .next (fallThrough s)) = .next t) :
    ∃ u, (if c then withReg opa (s.withFlagStatus f b e o) fun a => jumpEffect a (s.withFlagStatus f b e o)
        else .next (fallThrough (s.withFlagStatus f b e o))) = .next u ∧
      SameWrites s (s.withFlagStatus f b e o) t u := by
  cases c with
  | true => exact withReg_sameWrites h fun _ => .of_kept rfl ⟨rfl, rfl, rfl⟩
  | false =>
    obtain rfl := Host.Outcome.next.inj h
    exact ⟨_, rfl, .of_kept rfl ⟨rfl, rfl, rfl⟩⟩

/-- Where `i` tests the flag, `f` and `g` give the test the same answer. -/
def FlagReadAlike (i : Instr) (f g : Flag) : Prop :=
  ∀ b, i = .jeq b ∨ i = .jne b → (f = .equal ↔ g = .equal)

theorem jeqTaken_congr {g : Flag} (h : f = .equal ↔ g = .equal) : jeqTaken f = jeqTaken g :=
  Bool.eq_iff_iff.2 (by simp only [jeqTaken_iff, h])

theorem jneTaken_congr {g : Flag} (h : f = .equal ↔ g = .equal) : jneTaken f = jneTaken g :=
  Bool.eq_iff_iff.2 (by simp only [jneTaken_iff, ne_eq, h])

/-- R17, R19, R20, R22: whatever the four fields hold, an instruction makes the same writes, provided the flag answers the
test of a JEQ or a JNE alike. -/
theorem exec_sameWrites {i : Instr} (hf : FlagReadAlike i s.fl f) (h : exec i s = .next t) :
    ∃ u, exec i (s.withFlagStatus f b e o) = .next u ∧ SameWrites s (s.withFlagStatus f b e o) t u := by
  cases i with
  | add => exact withRegs_sameWrites h fun _ _ => .of_kept rfl ⟨rfl, rfl, rfl⟩
  | mul => exact withRegs_sameWrites h fun _ _ => .of_kept rfl ⟨rfl, rfl, rfl⟩
  | cmp => exact withRegs_sameWrites h cmpEffect_sameWrites
  | hlt =>
    obtain rfl := Host.Outcome.next.inj h
    exact ⟨_, rfl, hltEffect_sameWrites⟩
  | ldi => exact withReg_sameWrites h fun _ => .of_kept rfl ⟨rfl, rfl, rfl⟩
  | prn => exact withReg_sameWrites h prnEffect_sameWrites
  | psh => exact withReg_sameWrites h fun _ => .of_kept rfl ⟨rfl, rfl, rfl⟩
  | pop => exact withReg_sameWrites h fun _ => .of_kept rfl ⟨rfl, rfl, rfl⟩
  | call => exact withReg_sameWrites h fun _ => .of_kept rfl ⟨rfl, rfl, rfl⟩
  | ret =>
    obtain rfl := Host.Outcome.next.inj h
    exact ⟨_, rfl, .of_kept rfl ⟨rfl, rfl, rfl⟩⟩
  | jmp => exact withReg_sameWrites h fun _ => .of_kept rfl ⟨rfl, rfl, rfl⟩
  | jeq opa =>
    have hc : jeqTaken s.fl = jeqTaken f := jeqTaken_congr (hf opa (.inl rfl))
    simp only [exec, execJeq, hc] at h
    exact condJump_sameWrites h
  | jne opa =>
    have hc : jneTaken s.fl = jneTaken f := jneTaken_congr (hf opa (.inr rfl))
    simp only [exec, execJne, hc] at h
    exact condJump_sameWrites h

end

/-- An instruction for which two flags are alike has the same effect on everything else under both. -/
theorem exec_withFlag {i : Instr} {s t : State} {f : Flag} (hf : FlagReadAlike i s.fl f) (h : exec i s = .next t) :
    ∃ u, exec i { s with fl := f } = .next u ∧ { u with fl := t.fl } = t := by
  obtain ⟨u, hu, hw⟩ := exec_sameWrites (b := s.running) (e := s.fault) (o := s.out) hf h
  exact ⟨u, hu, State.ext_reg hw.reg_eq hw.pc rfl hw.running.eq hw.fault.eq hw.mem (hw.out_eq rfl)⟩

/-- No instruction reads the run flag (R19). -/
theorem exec_withRunning {i : Instr} {s t : State} (b : Bool) (h : exec i s = .next t) :
    ∃ u, exec i { s with running := b } = .next u ∧ { u with running := t.running } = t := by
  obtain ⟨u, hu, hw⟩ := exec_sameWrites (b := b) (e := s.fault) (o := s.out) (fun _ _ => .rfl) h
  exact ⟨u, hu, State.ext_reg hw.reg_eq hw.pc hw.fl.eq rfl hw.fault.eq hw.mem (hw.out_eq rfl)⟩

/-! ## Which instruction writes the flag and the run flag -/

theorem Effect.fl_eq_or_cmp {i : Instr} {s t : State} (h : Effect i s t) :
    t.fl = s.fl ∨ ∃ opa opb, i = .cmp opa opb := by
  cases h with
  | cmp a b => exact .inr ⟨regByte a, regByte b, rfl⟩
  | _ => exact .inl rfl

theorem Effect.running_eq_or_hlt {i : Instr} {s t : State} (h : Effect i s t) :
    t.running = s.running ∨ (i = .hlt ∧ t.running = false) := by
  cases h with
  | hlt => exact .inr ⟨rfl, rfl⟩
  | _ => exact .inl rfl

theorem exec_fl_eq_or_cmp {i : Instr} {s t : State} (h : exec i s = .next t) :
    t.fl = s.fl ∨ ∃ opa opb, i = .cmp opa opb := by
  rcases exec_cases h with he | ⟨rfl, -⟩
  · exact he.fl_eq_or_cmp
  · exact .inl rfl

theorem exec_running_eq_or_hlt {i : Instr} {s t : State} (h : exec i s = .next t) :
    t.running = s.running ∨ (i = .hlt ∧ t.running = false) := by
  rcases exec_cases h with he | ⟨rfl, -⟩
  · exact he.running_eq_or_hlt
  · exact .inl rfl

/-- A step that changes the run flag executes a HLT. -/
theorem fetchDecode_of_step_running_ne {s t : State} (h : step s = .next t) (hne : t.running ≠ s.running) :
    s.fetchDecode = .ok .hlt := by
  rcases step_cases h with ⟨-, rfl⟩ | ⟨-, i, hd, he | rfl⟩ | ⟨-, e, -, rfl⟩
  · exact absurd rfl hne
  · obtain ⟨rfl, -⟩ := he.running_eq_or_hlt.resolve_left hne
    exact hd
  · exact absurd rfl hne
  · exact absurd rfl hne

theorem opcode_of_fetchDecode {s : State} {i : Instr} (h : s.fetchDecode = .ok i) : s.mem.read s.pc = i.opcode :=
  (opcode_of_decode (a := s.mem.read (s.pc + 1)) (b := s.mem.read (s.pc + 2)) h).symm

/-- Settles O39: the flag is replaced under `exec_withFlag`, whose proviso holds of every instruction but JEQ and JNE for any
flag, and of those two for flags other than EQUAL. -/
theorem flagWrittenByCmpReadByJumps : Obligations.FlagWrittenByCmpReadByJumps := by
  refine ⟨fun i s t h hne => (exec_fl_eq_or_cmp h).resolve_left hne, fun a b s f => ?_,
    fun i s t f hjeq hjne h => exec_withFlag (fun b => ?_) h, fun a s => ⟨?_, ?_, ?_, ?_⟩,
    fun i s t f hs hf h => exec_withFlag (fun _ _ => iff_of_false hs hf) h⟩
  · exact (exec_of_effect (.cmp a b _)).trans (exec_of_effect (.cmp a b s)).symm
  · rintro (hi | hi)
    · exact absurd hi (hjeq b)
    · exact absurd hi (hjne b)
  · exact exec_of_effect (.jeqTaken a _ rfl)
  · exact exec_of_effect (.jeqNot (regByte a) _ rfl)
  · exact exec_of_effect (.jneNot (regByte a) _ rfl)
  · exact exec_of_effect (.jneTaken a _ rfl)

/-- Settles O41: only HLT's effect writes the run flag, a stopped core keeps it, and `exec_withRunning` replaces it. -/
theorem runningClearedOnlyByHlt : Obligations.RunningClearedOnlyByHlt := by
  refine ⟨rfl, fun s t hs h => ?_, fun i s t h hne => (exec_running_eq_or_hlt h).resolve_left hne,
    fun s => ⟨hltEffect s, exec_of_effect (.hlt s), rfl⟩,
    fun s t h hne => opcode_of_fetchDecode (fetchDecode_of_step_running_ne h hne), fun i s t b h => exec_withRunning b h⟩
  rw [step_of_stopped ((State.stopped_eq_true s).2 (.inl hs))] at h
  exact Host.Outcome.next.inj h ▸ hs

end Sys2Proof.Machine
end

section
/-! PROOFS. 41_alu.md: ADD (R81), MUL (R82) and CMP (R83), each with its whole frame. -/

namespace Sys2Proof.Machine

/-! ## The ALU's results (R84): the exact unsigned result modulo 256, and the unsigned comparison -/

@[simp] theorem aluAdd_toNat (x y : Byte) : (aluAdd x y).toNat = (x.toNat + y.toNat) % 256 := BitVec.toNat_ofNat _ 8

@[simp] theorem aluMul_toNat (x y : Byte) : (aluMul x y).toNat = x.toNat * y.toNat % 256 := BitVec.toNat_ofNat _ 8

/-- The flag CMP gives is the one value whose comparison holds. -/
theorem aluCmp_cases (x y : Byte) :
    (x.toNat = y.toNat ∧ aluCmp x y = .equal) ∨ (y.toNat < x.toNat ∧ aluCmp x y = .greater) ∨
      (x.toNat < y.toNat ∧ aluCmp x y = .less) := by
  unfold aluCmp
  rcases Nat.lt_trichotomy x.toNat y.toNat with h | h | h
  · exact .inr (.inr ⟨h, by rw [if_neg h.ne, if_neg h.not_gt]⟩)
  · exact .inl ⟨h, if_pos h⟩
  · exact .inr (.inl ⟨h, by rw [if_neg h.ne', if_pos h]⟩)

theorem aluCmp_eq_equal_iff (x y : Byte) : aluCmp x y = .equal ↔ x.toNat = y.toNat := by
  rcases aluCmp_cases x y with ⟨h, hf⟩ | ⟨h, hf⟩ | ⟨h, hf⟩ <;> simp [hf] <;> omega

theorem aluCmp_eq_greater_iff (x y : Byte) : aluCmp x y = .greater ↔ y.toNat < x.toNat := by
  rcases aluCmp_cases x y with ⟨h, hf⟩ | ⟨h, hf⟩ | ⟨h, hf⟩ <;> simp [hf] <;> omega

theorem aluCmp_eq_less_iff (x y : Byte) : aluCmp x y = .less ↔ x.toNat < y.toNat := by
  rcases aluCmp_cases x y with ⟨h, hf⟩ | ⟨h, hf⟩ | ⟨h, hf⟩ <;> simp [hf] <;> omega

/-! ## The effects -/

section
variable (s : State) (a b : Reg)

/-- A register write followed by the default advance changes that register and pc alone. -/
theorem State.setReg_advance_frame (v n : Byte) :
    SameRegsExcept [a] s ((s.setReg a v).advance n) ∧ ((s.setReg a v).advance n).pc = s.pc + n ∧
      ((s.setReg a v).advance n).fl = s.fl ∧ SameStatus s ((s.setReg a v).advance n) ∧
      SameMem s ((s.setReg a v).advance n) :=
  ⟨fun _ hr => s.setReg_reg_other (List.ne_of_not_mem_cons hr) v, rfl, rfl, ⟨rfl, rfl, rfl⟩, fun _ => rfl⟩

@[simp] theorem addEffect_reg_same : (addEffect a b s).reg a = aluAdd (s.reg a) (s.reg b) := s.setReg_reg_same a _

@[simp] theorem mulEffect_reg_same : (mulEffect a b s).reg a = aluMul (s.reg a) (s.reg b) := s.setReg_reg_same a _

/-- CMP writes the flag and pc alone. -/
theorem cmpEffect_frame :
    SameRegsExcept [] s (cmpEffect a b s) ∧ (cmpEffect a b s).pc = s.pc + 3 ∧ SameStatus s (cmpEffect a b s) ∧
      SameMem s (cmpEffect a b s) :=
  ⟨fun _ _ => rfl, rfl, ⟨rfl, rfl, rfl⟩, fun _ => rfl⟩

end

/-- Settles O16: ADD's effect is one register write of the sum and the advance by three bytes; `withRegs_bad` gives the
fatal error. -/
theorem addWritesTheSumModulo256 : Obligations.AddWritesTheSumModulo256 := by
  refine ⟨decode_add, fun a b s => ⟨addEffect a b s, exec_of_effect (.add a b s), ?_, s.setReg_advance_frame a _ 3⟩,
    fun opa opb s h => withRegs_bad h s fun a b => addEffect a b s⟩
  rw [addEffect_reg_same, aluAdd_toNat]

/-- Settles O17: MUL's effect is one register write of the product's low byte and the advance by three bytes. -/
theorem mulWritesTheLowByteOfTheProduct : Obligations.MulWritesTheLowByteOfTheProduct := by
  refine ⟨decode_mul, fun a b s => ⟨mulEffect a b s, exec_of_effect (.mul a b s), ?_, s.setReg_advance_frame a _ 3⟩,
    fun opa opb s h => withRegs_bad h s fun a b => mulEffect a b s⟩
  rw [mulEffect_reg_same, aluMul_toNat]

/-- Settles O18: CMP's effect writes the flag `aluCmp` gives, which is each of the three values exactly when its comparison
holds. -/
theorem cmpSetsTheFlagUnsigned : Obligations.CmpSetsTheFlagUnsigned :=
  ⟨decode_cmp,
    fun a b s => ⟨cmpEffect a b s, exec_of_effect (.cmp a b s), aluCmp_eq_equal_iff _ _, aluCmp_eq_greater_iff _ _,
      aluCmp_eq_less_iff _ _, cmpEffect_frame s a b⟩,
    fun _ _ s h => withRegs_bad h s fun a b => cmpEffect a b s⟩

end Sys2Proof.Machine
end

section
/-! PROOFS. 42_system_and_move.md: HLT (R91) and LDI (R92), each with its whole frame. -/

namespace Sys2Proof.Machine

section
variable (s : State)

/-- HLT writes the run flag and pc alone. -/
theorem hltEffect_frame :
    SameRegsExcept [] s (hltEffect s) ∧ (hltEffect s).fl = s.fl ∧ (hltEffect s).fault = s.fault ∧
      (hltEffect s).out = s.out ∧ SameMem s (hltEffect s) :=
  ⟨fun _ _ => rfl, rfl, rfl, rfl, fun _ => rfl⟩

@[simp] theorem hltEffect_running : (hltEffect s).running = false := rfl

@[simp] theorem hltEffect_pc : (hltEffect s).pc = s.pc + 1 := rfl

/-- R126: the core executes nothing after a HLT. -/
theorem hltEffect_stopped : (hltEffect s).stopped = true :=
  (State.stopped_eq_true _).2 (.inl (hltEffect_running s))

@[simp] theorem ldiEffect_reg_same (a : Reg) (imm : Byte) : (ldiEffect a imm s).reg a = imm := s.setReg_reg_same a imm

end

/-- Settles O19: HLT's effect clears the run flag, which stops the core, and advances pc by its one byte. -/
theorem hltStopsTheCore : Obligations.HltStopsTheCore := by
  refine ⟨decode_hlt, fun s => ⟨hltEffect s, exec_of_effect (.hlt s), hltEffect_running s, hltEffect_pc s, ?_⟩⟩
  obtain ⟨hregs, hfl, hfault, hout, hmem⟩ := hltEffect_frame s
  exact ⟨hregs, hfl, hfault, hout, hmem, hltEffect_stopped s⟩

/-- Settles O20: LDI's effect is one register write of the immediate and the advance by three bytes; `withReg_bad` gives the
fatal error. -/
theorem ldiLoadsTheImmediate : Obligations.LdiLoadsTheImmediate :=
  ⟨decode_ldi,
    fun a v s => ⟨ldiEffect a v s, exec_of_effect (.ldi a v s), ldiEffect_reg_same s a v, s.setReg_advance_frame a v 3⟩,
    fun _ v s h => withReg_bad h s fun a => ldiEffect a v s⟩

end Sys2Proof.Machine
end

section
/-! PROOFS. 43_stack.md: PSH (R101) and POP (R102), each with its whole frame, and the order in which values come off the
stack (R105). -/

namespace Sys2Proof.Machine

/-! ## The effects -/

section
variable (s : State) (a : Reg)

@[simp] theorem pshEffect_reg_sp : (pshEffect a s).reg 7 = s.reg 7 - 1 := s.decSp_reg_sp

/-- The stored value is read after the decrement (R103 a). -/
@[simp] theorem pshEffect_mem : (pshEffect a s).mem = s.mem.write (s.reg 7 - 1) (s.decSp.reg a) := by
  simp [pshEffect]

/-- Apart from its memory cell PSH writes x[7] and pc alone. -/
theorem pshEffect_frame :
    SameRegsExcept [7] s (pshEffect a s) ∧ (pshEffect a s).pc = s.pc + 2 ∧ (pshEffect a s).fl = s.fl ∧
      SameStatus s (pshEffect a s) :=
  ⟨fun _ hr => s.setReg_reg_other (List.ne_of_not_mem_cons hr) _, rfl, rfl, ⟨rfl, rfl, rfl⟩⟩

/-- The register write comes before the increment (R104 a). -/
theorem popEffect_reg (q : Reg) :
    (popEffect a s).reg q =
      if q = 7 then (s.setReg a (s.mem.read (s.reg 7))).reg 7 + 1 else (s.setReg a (s.mem.read (s.reg 7))).reg q :=
  State.incSp_reg _ q

theorem popEffect_reg_same :
    (popEffect a s).reg a = if a = 7 then s.mem.read (s.reg 7) + 1 else s.mem.read (s.reg 7) := by
  by_cases ha : a = 7
  · simp [popEffect_reg, ha]
  · simp [popEffect_reg, ha]

theorem popEffect_reg_sp {a : Reg} (ha : a ≠ 7) : (popEffect a s).reg 7 = s.reg 7 + 1 := by
  rw [popEffect_reg, if_pos rfl, State.setReg_reg_other _ ha.symm]

@[simp] theorem popEffect_mem : (popEffect a s).mem = s.mem := rfl

/-- POP writes its register, x[7] and pc alone. -/
theorem popEffect_frame :
    SameRegsExcept [a, 7] s (popEffect a s) ∧ (popEffect a s).pc = s.pc + 2 ∧ (popEffect a s).fl = s.fl ∧
      SameStatus s (popEffect a s) ∧ SameMem s (popEffect a s) := by
  refine ⟨fun q hq => ?_, rfl, rfl, ⟨rfl, rfl, rfl⟩, fun _ => rfl⟩
  obtain ⟨hqa, hq7⟩ : q ≠ a ∧ q ≠ 7 := by simpa using hq
  rw [popEffect_reg, if_neg hq7, State.setReg_reg_other _ hqa]

end

/-- Settles O22: PSH's effect is the decrement and one memory write there of the register's value after it; `withReg_bad`
gives the fatal error. -/
theorem pshStoresBelowTheStackPointer : Obligations.PshStoresBelowTheStackPointer := by
  refine ⟨decode_psh, fun a s => ⟨pshEffect a s, exec_of_effect (.psh a s), pshEffect_reg_sp s a, ?_, pshEffect_frame s a⟩,
    fun _ s h => withReg_bad h s fun a => pshEffect a s⟩
  rintro top htop
  obtain rfl : s.reg 7 - 1 = top := s.decSp_reg_sp.symm.trans htop
  rw [SameMemExcept, pshEffect_mem, Memory.read_write_same, State.decSp_reg]
  exact ⟨rfl, rfl, fun b hb => Memory.read_write_other _ hb _⟩

/-- Settles O23: POP's effect is the register write of the byte x[7] addresses and then the increment; `withReg_bad` gives
the fatal error. -/
theorem popLoadsFromTheStackPointer : Obligations.PopLoadsFromTheStackPointer :=
  ⟨decode_pop,
    fun a s => ⟨popEffect a s, exec_of_effect (.pop a s), popEffect_reg_same s a, popEffect_reg_sp s, popEffect_frame s a⟩,
    fun _ s h => withReg_bad h s fun a => popEffect a s⟩

/-! ## The values on the stack -/

/-- The cells from x[7] upwards, addresses modulo 256, hold the values `vs`, the last one pushed first. -/
def State.StackHolds (s : State) (vs : List Byte) : Prop :=
  ∀ i v, vs[i]? = some v → s.mem.read (s.reg 7 + BitVec.ofNat 8 i) = v

theorem State.stackHolds_nil (s : State) : s.StackHolds [] := by
  simp [State.StackHolds]

theorem State.StackHolds.read_sp {s : State} {v : Byte} {vs : List Byte} (h : s.StackHolds (v :: vs)) :
    s.mem.read (s.reg 7) = v := by
  simpa using h 0 v rfl

/-- A push puts its value in front; up to 255 values below the top of a stack lie clear of the cell it writes. -/
theorem State.StackHolds.after_psh {s : State} {vs : List Byte} {r : Reg} (h : s.StackHolds vs) (hr : r ≠ 7)
    (hlen : vs.length < 256) : (pshEffect r s).StackHolds (s.reg r :: vs) := by
  intro i v hv
  rw [pshEffect_mem, pshEffect_reg_sp, State.decSp_reg, if_neg hr]
  cases i with
  | zero => simpa using hv
  | succ i =>
    have hi : i < vs.length := (List.getElem?_eq_some_iff.1 (show vs[i]? = some v from hv)).1
    have haddr : s.reg 7 - 1 + BitVec.ofNat 8 (i + 1) = s.reg 7 + BitVec.ofNat 8 i := by bv_omega
    have hclear : s.reg 7 + BitVec.ofNat 8 i ≠ s.reg 7 - 1 := by bv_omega
    rw [haddr, Memory.read_write_other _ hclear]
    exact h i v hv

/-- A pop takes the first value off. -/
theorem State.StackHolds.after_pop {s : State} {v : Byte} {vs : List Byte} {r : Reg} (h : s.StackHolds (v :: vs))
    (hr : r ≠ 7) : (popEffect r s).StackHolds vs := by
  intro i w hw
  have haddr : s.reg 7 + 1 + BitVec.ofNat 8 i = s.reg 7 + BitVec.ofNat 8 (i + 1) := by bv_omega
  rw [popEffect_mem, popEffect_reg_sp s hr, haddr]
  exact h (i + 1) w hw

/-- PSHs put the values of their registers in front, the last one first, while at most 256 values are on the stack. -/
theorem execAll_psh {rs : List Reg} {s : State} {vs : List Byte} (hrs : 7 ∉ rs) (h : s.StackHolds vs)
    (hlen : vs.length + rs.length ≤ 256) :
    ∃ t, execAll (rs.map fun r => .psh (regByte r)) s = .next t ∧ t.reg 7 = s.reg 7 - BitVec.ofNat 8 rs.length ∧
      t.StackHolds ((rs.map s.reg).reverse ++ vs) := by
  induction rs generalizing s vs with
  | nil => exact ⟨s, rfl, by simp, h⟩
  | cons r rs ih =>
    obtain ⟨hr, hrs⟩ : 7 ≠ r ∧ 7 ∉ rs := by simpa using hrs
    rw [List.length_cons] at hlen
    obtain ⟨t, hexec, hsp, hstack⟩ := ih hrs (h.after_psh hr.symm (by omega)) (by rw [List.length_cons]; omega)
    refine ⟨t, (execAll_cons (exec_of_effect (.psh r s)) _).trans hexec, ?_, ?_⟩
    · rw [hsp, pshEffect_reg_sp, List.length_cons]
      bv_omega
    · obtain ⟨hframe, -⟩ := pshEffect_frame s r
      have hregs : rs.map (pshEffect r s).reg = rs.map s.reg :=
        List.map_congr_left fun q hq => hframe q (by simpa using ne_of_mem_of_not_mem hq hrs)
      simpa [hregs] using hstack

/-- POPs take as many values off as there are POPs. -/
theorem execAll_pop {ps : List Reg} {s : State} {vs : List Byte} (hps : 7 ∉ ps) (h : s.StackHolds vs)
    (hlen : ps.length ≤ vs.length) :
    ∃ t, execAll (ps.map fun r => .pop (regByte r)) s = .next t ∧ t.reg 7 = s.reg 7 + BitVec.ofNat 8 ps.length ∧
      t.StackHolds (vs.drop ps.length) := by
  induction ps generalizing s vs with
  | nil => exact ⟨s, rfl, by simp, h⟩
  | cons p ps ih =>
    obtain ⟨hp, hps⟩ : 7 ≠ p ∧ 7 ∉ ps := by simpa using hps
    cases vs with
    | nil => simp at hlen
    | cons v vs =>
      obtain ⟨t, hexec, hsp, hstack⟩ := ih hps (h.after_pop hp.symm) (Nat.le_of_succ_le_succ hlen)
      refine ⟨t, (execAll_cons (exec_of_effect (.pop p s)) _).trans hexec, ?_, hstack⟩
      rw [hsp, popEffect_reg_sp s hp.symm, List.length_cons]
      bv_omega

/-- R105 for one pair: the value is in the other register, x[7] is back and the cell keeps the value. -/
theorem popEffect_pshEffect {a b : Reg} (s : State) (ha : a ≠ 7) (hb : b ≠ 7) :
    (popEffect b (pshEffect a s)).reg b = s.reg a ∧ (popEffect b (pshEffect a s)).reg 7 = s.reg 7 ∧
      (popEffect b (pshEffect a s)).mem.read (s.reg 7 - 1) = s.reg a := by
  have hcell : (pshEffect a s).mem.read (s.reg 7 - 1) = s.reg a := by
    simp [State.decSp_reg, ha]
  refine ⟨?_, ?_, hcell⟩
  · rw [popEffect_reg_same, if_neg hb, pshEffect_reg_sp, hcell]
  · rw [popEffect_reg_sp _ hb, pshEffect_reg_sp, BitVec.sub_add_cancel]

/-- Settles O24: after the PSHs the stack holds the registers' values in reverse, and each POP takes the first one off. -/
theorem popUndoesPshLastInFirstOut : Obligations.PopUndoesPshLastInFirstOut := by
  refine ⟨fun a b s ha hb => ⟨pshEffect a s, popEffect b (pshEffect a s), exec_of_effect (.psh a s),
    exec_of_effect (.pop b _), popEffect_pshEffect s ha hb⟩, fun rs ps q s hrs hps hq hlen h => ?_⟩
  obtain ⟨t, hpsh, hspt, hpushed⟩ := execAll_psh hrs s.stackHolds_nil (by simpa using hlen)
  obtain ⟨u, hpop, hspu, hleft⟩ := execAll_pop hps hpushed (by simpa using h.le)
  have htop : u.mem.read (u.reg 7) = s.reg (rs[rs.length - 1 - ps.length]) := by
    rw [List.append_nil, List.drop_eq_getElem_cons (by simpa using h)] at hleft
    simpa using hleft.read_sp
  refine ⟨popEffect q u, ?_, ?_, ?_⟩
  · rw [List.append_assoc, execAll_append hpsh, execAll_append hpop, execAll_cons (exec_of_effect (.pop q u))]
    rfl
  · rw [popEffect_reg_same, if_neg hq, htop]
  · rw [popEffect_reg_sp u hq, hspu, hspt]
    bv_omega

end Sys2Proof.Machine
end

section
/-! PROOFS. 44_control_transfer.md: RET (R112), JMP (R113) and JEQ (R114), each with its whole frame, and the nesting of
CALLs and RETs (R116). -/

namespace Sys2Proof.Machine

/-! ## The effects -/

section
variable (s : State) (a : Reg)

/-- A jump, taken or fallen through, writes pc alone. -/
theorem State.jump_frame (target : Byte) :
    SameRegsExcept [] s (s.jump target) ∧ (s.jump target).fl = s.fl ∧ SameStatus s (s.jump target) ∧
      SameMem s (s.jump target) :=
  ⟨fun _ _ => rfl, rfl, ⟨rfl, rfl, rfl⟩, fun _ => rfl⟩

@[simp] theorem callEffect_reg_sp : (callEffect a s).reg 7 = s.reg 7 - 1 := s.decSp_reg_sp

@[simp] theorem callEffect_mem : (callEffect a s).mem = s.mem.write (s.reg 7 - 1) (s.pc + 2) := by
  simp [callEffect]

@[simp] theorem retEffect_pc : (retEffect s).pc = s.mem.read (s.reg 7) := rfl

@[simp] theorem retEffect_reg_sp : (retEffect s).reg 7 = s.reg 7 + 1 := s.incSp_reg_sp

/-- RET writes x[7] and pc alone. -/
theorem retEffect_frame :
    SameRegsExcept [7] s (retEffect s) ∧ (retEffect s).fl = s.fl ∧ SameStatus s (retEffect s) ∧
      SameMem s (retEffect s) :=
  ⟨fun _ hr => s.setReg_reg_other (List.ne_of_not_mem_cons hr) _, rfl, ⟨rfl, rfl, rfl⟩, fun _ => rfl⟩

end

/-- JEQ on EQUAL is JMP, its index check included. -/
theorem exec_jeq_of_equal {s : State} (h : s.fl = .equal) (opa : Byte) : exec (.jeq opa) s = exec (.jmp opa) s :=
  if_pos ((jeqTaken_iff s.fl).2 h)

/-- Settles O28: RET's effect is the increment and the jump to the byte x[7] addressed before it. -/
theorem retGoesToThePoppedAddress : Obligations.RetGoesToThePoppedAddress :=
  ⟨decode_ret, fun s => ⟨retEffect s, exec_of_effect (.ret s), retEffect_pc s, retEffect_reg_sp s, retEffect_frame s⟩⟩

/-- Settles O30: JMP's effect writes pc alone; `withReg_bad` gives the fatal error. -/
theorem jmpGoesToTheRegister : Obligations.JmpGoesToTheRegister :=
  ⟨decode_jmp, fun a s => ⟨jumpEffect a s, exec_of_effect (.jmp a s), rfl, s.jump_frame (s.reg a)⟩,
    fun _ s h => withReg_bad h s fun a => jumpEffect a s⟩

/-- Settles O31: on EQUAL it is JMP; on another flag it falls through before the operand is looked at. -/
theorem jeqJumpsIffEqual : Obligations.JeqJumpsIffEqual := by
  obtain ⟨-, hjmp, hbad⟩ := jmpGoesToTheRegister
  refine ⟨decode_jeq, fun a s heq => ?_, fun opa s heq h => ?_, fun opa s hne => ?_⟩
  · rw [exec_jeq_of_equal heq]
    exact hjmp a s
  · rw [exec_jeq_of_equal heq]
    exact hbad opa s h
  · have hnot : jeqTaken s.fl = false := Bool.eq_false_iff.2 fun h => hne ((jeqTaken_iff s.fl).1 h)
    exact ⟨fallThrough s, exec_of_effect (.jeqNot opa s hnot), rfl, s.jump_frame (s.pc + 2)⟩

/-! ## Nested calls -/

/-- R116 for one call: in any state with the x[7] the CALL left and the same byte in its cell, RET resumes behind the CALL. -/
theorem retEffect_resumes {a : Reg} {s u : State} (hsp : u.reg 7 = (callEffect a s).reg 7)
    (hcell : u.mem.read ((callEffect a s).reg 7) = (callEffect a s).mem.read ((callEffect a s).reg 7)) :
    (retEffect u).pc = s.pc + 2 ∧ (retEffect u).reg 7 = s.reg 7 := by
  constructor
  · rw [retEffect_pc, hsp, hcell, callEffect_mem, callEffect_reg_sp, Memory.read_write_same]
  · rw [retEffect_reg_sp, hsp, callEffect_reg_sp, BitVec.sub_add_cancel]

/-- CALLs through the registers `rs`, one inside the other, and as many RETs. -/
def nestedCalls (rs : List Reg) : List Instr :=
  rs.map (fun r => .call (regByte r)) ++ List.replicate rs.length .ret

theorem nestedCalls_cons (r : Reg) (rs : List Reg) :
    nestedCalls (r :: rs) = .call (regByte r) :: (nestedCalls rs ++ [.ret]) := by
  simp [nestedCalls, List.replicate_succ']

/-- Nested calls leave x[7] as it was and resume behind the outermost one. They write only as many cells below x[7] as there
are CALLs; the rest of the 256, counted upwards from x[7], keep their bytes, which keeps the outer return address. -/
theorem execAll_nestedCalls {rs : List Reg} (s : State) (hlen : rs.length ≤ 256) :
    ∃ t, execAll (nestedCalls rs) s = .next t ∧ t.reg 7 = s.reg 7 ∧ (rs ≠ [] → t.pc = s.pc + 2) ∧
      ∀ i, i + rs.length < 256 → t.mem.read (s.reg 7 + BitVec.ofNat 8 i) = s.mem.read (s.reg 7 + BitVec.ofNat 8 i) := by
  induction rs generalizing s with
  | nil => exact ⟨s, rfl, rfl, fun h => absurd rfl h, fun _ _ => rfl⟩
  | cons r rs ih =>
    rw [List.length_cons] at hlen
    obtain ⟨u, hexec, hsp, -, hmem⟩ := ih (callEffect r s) (by omega)
    have hcell : u.mem.read ((callEffect r s).reg 7) = (callEffect r s).mem.read ((callEffect r s).reg 7) := by
      simpa using hmem 0 (by omega)
    obtain ⟨hpc, hsp'⟩ := retEffect_resumes hsp hcell
    refine ⟨retEffect u, ?_, hsp', fun _ => hpc, fun i hi => ?_⟩
    · rw [nestedCalls_cons, execAll_cons (exec_of_effect (.call r s)), execAll_append hexec,
        execAll_cons (exec_of_effect (.ret u))]
      rfl
    · rw [List.length_cons] at hi
      have haddr : (callEffect r s).reg 7 + BitVec.ofNat 8 (i + 1) = s.reg 7 + BitVec.ofNat 8 i := by
        rw [callEffect_reg_sp]
        bv_omega
      have hclear : s.reg 7 + BitVec.ofNat 8 i ≠ s.reg 7 - 1 := by bv_omega
      have hinner := hmem (i + 1) (by omega)
      rwa [haddr, callEffect_mem, Memory.read_write_other _ hclear] at hinner

/-- Settles O29: `retEffect_resumes` for one call, and nested calls by induction on the registers they go through. -/
theorem retResumesAfterTheCallAtAnyDepth : Obligations.RetResumesAfterTheCallAtAnyDepth := by
  refine ⟨fun a s => ⟨callEffect a s, exec_of_effect (.call a s), fun u hsp hcell =>
    ⟨retEffect u, exec_of_effect (.ret u), retEffect_resumes hsp hcell⟩⟩, fun rs s hpos hlen => ?_⟩
  obtain ⟨t, hexec, hsp, hpc, -⟩ := execAll_nestedCalls s hlen
  exact ⟨t, hexec, hpc (List.ne_nil_of_length_pos hpos), hsp⟩

end Sys2Proof.Machine
end

section
/-! PROOFS. 60_exceptions.md: the opcode bytes that raise UNKNOWN_OPCODE (R122) and UNSUPPORTED_ALU_OP (R123), and that
nothing else does. -/

namespace Sys2Proof

/-! ## The bytes the decoder rejects -/

/-- Bit 5 of the opcode byte as a number (R51). -/
theorem isAluOp_iff (ir : Byte) : isAluOp ir = true ↔ ir.toNat / 32 % 2 = 1 := by
  have hbit : ((ir >>> 5) &&& 1#8).toNat = ir.toNat / 32 % 2 := by
    simp [Nat.shiftRight_eq_div_pow, Nat.and_one_is_mod]
  rw [isAluOp, beq_iff_eq, ← BitVec.toNat_inj, hbit]
  rfl

theorem isAluOp_eq_false_iff (ir : Byte) : isAluOp ir = false ↔ ir.toNat / 32 % 2 = 0 := by
  rw [← Bool.not_eq_true, isAluOp_iff]
  exact Nat.mod_two_ne_one

/-- The ALU rejects every byte but its three opcodes, always as UNSUPPORTED_ALU_OP. -/
theorem decodeAlu_eq_error_iff {ir a b : Byte} {e : Illegal} :
    decodeAlu ir a b = .error e ↔ e = .unsupportedAluOp ∧ ir ∉ [0xA0, 0xA2, 0xA7] := by
  unfold decodeAlu
  split_ifs <;> simp_all [eq_comm]

/-- The dispatch table rejects every byte but its ten opcodes, always as UNKNOWN_OPCODE. -/
theorem decodeHandler_eq_error_iff {ir a b : Byte} {e : Illegal} :
    decodeHandler ir a b = .error e ↔
      e = .unknownOpcode ∧ ir ∉ [0x01, 0x11, 0x45, 0x46, 0x47, 0x50, 0x54, 0x55, 0x56, 0x82] := by
  unfold decodeHandler
  split_ifs <;> simp_all [eq_comm]

theorem decode_eq_unknownOpcode_iff {ir a b : Byte} :
    decode ir a b = .error .unknownOpcode ↔
      ir.toNat / 32 % 2 = 0 ∧ ir ∉ [0x01, 0x11, 0x45, 0x46, 0x47, 0x50, 0x54, 0x55, 0x56, 0x82] := by
  rw [← isAluOp_eq_false_iff, decode]
  cases isAluOp ir with
  | true => simp [decodeAlu_eq_error_iff]
  | false => simp [decodeHandler_eq_error_iff]

theorem decode_eq_unsupportedAluOp_iff {ir a b : Byte} :
    decode ir a b = .error .unsupportedAluOp ↔ ir.toNat / 32 % 2 = 1 ∧ ir ∉ [0xA0, 0xA2, 0xA7] := by
  rw [← isAluOp_iff, decode]
  cases isAluOp ir with
  | true => simp [decodeAlu_eq_error_iff]
  | false => simp [decodeHandler_eq_error_iff]

end Sys2Proof

namespace Sys2Proof.Machine

/-! ## The step that raises -/

theorem causeOf_inj {e e' : Illegal} : causeOf e = causeOf e' ↔ e = e' := by
  cases e <;> cases e' <;> simp [causeOf]

theorem causeOf_ne_none (e : Illegal) : causeOf e ≠ .none := by
  cases e <;> simp [causeOf]

theorem causeOf_ne_regIndex (e : Illegal) : causeOf e ≠ .regIndex := by
  cases e <;> simp [causeOf]

/-- A running core's step raises the error of an illegal opcode exactly when the decoder rejects what it fetched for that
reason: an instruction's effect raises nothing, and its only fatal error is REG_INDEX. -/
theorem step_raises_causeOf_iff {s : State} (hrun : s.running = true) (hfault : s.fault = .none) (e : Illegal) :
    (∃ t, step s = .next t ∧ t.fault = causeOf e) ↔ s.fetchDecode = .error e := by
  have hs : s.stopped = false := s.stopped_eq_false.2 ⟨hrun, hfault⟩
  constructor
  · rintro ⟨t, hstep, ht⟩
    rcases step_cases hstep with ⟨-, rfl⟩ | ⟨-, i, -, he | rfl⟩ | ⟨-, e', hd, rfl⟩
    · exact absurd (ht.symm.trans hfault) (causeOf_ne_none e)
    · exact absurd (ht.symm.trans (he.fault_eq.trans hfault)) (causeOf_ne_none e)
    · exact absurd ht.symm (causeOf_ne_regIndex e)
    · rw [hd, causeOf_inj.1 ht]
  · exact fun hd => ⟨s.raise (causeOf e), step_of_illegal hs hd, rfl⟩

/-- Settles O33: the step raises what the decoder rejects for, and the decoder rejects as UNKNOWN_OPCODE the bytes with bit 5
clear that the dispatch table does not hold. -/
theorem unknownOpcodeRaisedExactly : Obligations.UnknownOpcodeRaisedExactly :=
  ⟨fun _ hrun hfault => (step_raises_causeOf_iff hrun hfault .unknownOpcode).trans decode_eq_unknownOpcode_iff,
    rfl⟩

/-- Settles O34: the step raises what the decoder rejects for, and the decoder rejects as UNSUPPORTED_ALU_OP the bytes with
bit 5 set that are no ALU opcode. -/
theorem unsupportedAluOpRaisedExactly : Obligations.UnsupportedAluOpRaisedExactly :=
  ⟨fun _ hrun hfault => (step_raises_causeOf_iff hrun hfault .unsupportedAluOp).trans decode_eq_unsupportedAluOp_iff,
    rfl⟩

end Sys2Proof.Machine
end

section
/-! PROOFS. 30_encoding.md: what decodes to what (R50 to R53, R56, R57, R60). -/

namespace Sys2Proof

/-! ## The decoder and the encoder -/

/-- The bytes that decode to an instruction: its opcode, and behind it its operands (R50, R53, R60). -/
theorem decode_eq_ok_iff {ir a b : Byte} {i : Instr} :
    decode ir a b = .ok i ↔ i.opcode = ir ∧ i.operands <+: [a, b] := by
  have hop : decode i.opcode a b = .ok i ↔ i.operands <+: [a, b] := by
    cases i <;> simp [Instr.opcode, Instr.operands, eq_comm]
  constructor
  · intro h
    obtain rfl := opcode_of_decode h
    exact ⟨rfl, hop.1 h⟩
  · rintro ⟨rfl, h⟩
    exact hop.2 h

theorem operands_length_eq (i : Instr) : i.operands.length = operandCount i.opcode := by
  cases i <;> simp [Instr.operands, Instr.opcode, operandCount]

theorem operands_length_le (i : Instr) : i.operands.length ≤ 2 := by
  cases i <;> simp [Instr.operands]

/-- Any bytes `f 0`, `f 1`, `f 2` decode to an instruction when those that are its own are the ones of its encoding. -/
theorem decode_of_encode_getElem? {f : Nat → Byte} {i : Instr} (h : ∀ k v, (encode i)[k]? = some v → f k = v) :
    decode (f 0) (f 1) (f 2) = .ok i := by
  refine decode_eq_ok_iff.2 ⟨(h 0 _ rfl).symm, List.prefix_iff_getElem?.2 fun k hk => ?_⟩
  have hv : f (k + 1) = i.operands[k] := h (k + 1) _ (List.getElem?_eq_getElem hk)
  have hlen := operands_length_le i
  obtain rfl | rfl : k = 0 ∨ k = 1 := by omega
  · simp [← hv]
  · simp [← hv]

theorem decodeBytes_encode_append (i : Instr) (rest : List Byte) : decodeBytes (encode i ++ rest) = .ok i := by
  refine decode_of_encode_getElem? (f := fun k => (encode i ++ rest).getD k 0#8) fun k v hv => ?_
  have hk : k < (encode i).length := (List.getElem?_eq_some_iff.1 hv).1
  rw [List.getD_eq_getElem?_getD, List.getElem?_append_left hk, hv, Option.getD_some]

/-- The encoding of a decoded instruction is as many of its bytes as the top two bits of the first say (R52). -/
theorem encode_of_decode {ir a b : Byte} {i : Instr} (h : decode ir a b = .ok i) :
    encode i = [ir, a, b].take (instructionLength ir) := by
  obtain ⟨rfl, hpre⟩ := decode_eq_ok_iff.1 h
  rw [instructionLength, Nat.add_comm, List.take_succ_cons, ← operands_length_eq, ← List.prefix_iff_eq_take.1 hpre]
  rfl

/-- Settles O3: `decodeBytes_encode_append` and `encode_of_decode`. -/
theorem decodeAndEncodeAgree : Obligations.DecodeAndEncodeAgree :=
  ⟨decodeBytes_encode_append, fun _ _ _ _ => encode_of_decode⟩

/-- Settles O1: each written-out byte is the opcode of its instruction. -/
theorem writtenOutWordsDecode : Obligations.WrittenOutWordsDecode :=
  ⟨decode_add _ _, decode_mul _ _, decode_cmp _ _, decode_hlt _ _, decode_ldi _ _, decode_prn _ _, decode_psh _ _,
    decode_pop _ _, decode_call _ _, decode_ret _ _, decode_jmp _ _, decode_jeq _ _, decode_jne _ _⟩

/-- Settles O2: the counts and classes of the thirteen bytes are computed, and each byte is the opcode of an instruction. -/
theorem topThreeBitsGiveCountAndClass : Obligations.TopThreeBitsGiveCountAndClass := by
  simp only [Obligations.TopThreeBitsGiveCountAndClass, List.forall_mem_cons]
  exact ⟨⟨rfl, rfl, _, decode_hlt 0 0⟩, ⟨rfl, rfl, _, decode_ret 0 0⟩, ⟨rfl, rfl, _, decode_psh 0 0⟩,
    ⟨rfl, rfl, _, decode_pop 0 0⟩, ⟨rfl, rfl, _, decode_prn 0 0⟩, ⟨rfl, rfl, _, decode_call 0 0⟩,
    ⟨rfl, rfl, _, decode_jmp 0 0⟩, ⟨rfl, rfl, _, decode_jeq 0 0⟩, ⟨rfl, rfl, _, decode_jne 0 0⟩,
    ⟨rfl, rfl, _, decode_ldi 0 0⟩, ⟨rfl, rfl, _, decode_add 0 0⟩, ⟨rfl, rfl, _, decode_mul 0 0⟩,
    ⟨rfl, rfl, _, decode_cmp 0 0⟩, List.forall_mem_nil _⟩

end Sys2Proof
end

section
/-! PROOFS. 20_memory.md and 70_reset_and_hazards.md: the canonical form of memory, the state after reset (R28, R140), the
load interface (R142), and what the core fetches of a loaded program. -/

namespace Sys2Proof.Machine

/-! ## Canonical memories -/

theorem Memory.lookup_eq_of_read_eq {m n : Memory} (h : ∀ a : Byte, m.read a = n.read a) {k : Nat}
    (hk : k < Config.memSize) : m.lookup k = n.lookup k := by
  simpa [Memory.read, Nat.mod_eq_of_lt hk] using h (BitVec.ofNat 8 k)

/-- A canonical memory lists exactly the cells that hold something other than the fill value. -/
theorem Memory.mem_iff {m : Memory} (h : m.wf) {c : Host.Cell} :
    c ∈ m ↔ m.lookup c.1 = c.2 ∧ c.2 ≠ Config.memFill := by
  constructor
  · intro hc
    obtain ⟨-, hne⟩ := h.2 c hc
    exact ⟨Memory.lookup_of_mem h hc, hne⟩
  · rintro ⟨hval, hne⟩
    obtain ⟨d, hd, hnum⟩ : ∃ d ∈ m, d.1 = c.1 := by
      by_contra hno
      push Not at hno
      exact hne (hval.symm.trans (Memory.lookup_of_not_mem hno))
    have hdc : d = c := Prod.ext hnum (by rw [← hval, ← hnum, Memory.lookup_of_mem h hd])
    exact hdc ▸ hd

theorem Memory.subset_of_read_eq {m n : Memory} (hm : m.wf) (hn : n.wf) (h : ∀ a : Byte, m.read a = n.read a) :
    m ⊆ n := by
  intro c hc
  obtain ⟨hval, hne⟩ := (Memory.mem_iff hm).1 hc
  obtain ⟨hlt, -⟩ := hm.2 c hc
  exact (Memory.mem_iff hn).2 ⟨(Memory.lookup_eq_of_read_eq h hlt).symm.trans hval, hne⟩

theorem Memory.nodup_of_wf {m : Memory} (h : m.wf) : m.Nodup := by
  obtain ⟨hrising, -⟩ := h
  exact hrising.imp fun hlt heq => hlt.ne (congrArg Prod.fst heq)

/-- Settles O14: memories that read alike list the same cells, and cells by rising address stand in one order only. -/
theorem canonicalMemoriesThatReadAlikeAreEqual : Obligations.CanonicalMemoriesThatReadAlikeAreEqual := by
  intro m n hm hn h
  have hperm : m.Perm n := (List.perm_ext_iff_of_nodup (Memory.nodup_of_wf hm) (Memory.nodup_of_wf hn)).2 fun _ =>
    ⟨fun hc => Memory.subset_of_read_eq hm hn h hc, fun hc => Memory.subset_of_read_eq hn hm (fun a => (h a).symm) hc⟩
  obtain ⟨hrising, -⟩ := hm
  obtain ⟨hrising', -⟩ := hn
  exact hperm.eq_of_pairwise (fun _ _ _ _ hlt hgt => absurd hlt hgt.asymm) hrising hrising'

/-! ## Reset -/

/-- Settles O11: the fields of `State.reset`, the registers one by one. -/
theorem resetState : Obligations.ResetState :=
  ⟨rfl, rfl, by decide, rfl, rfl, rfl, rfl, Memory.read_nil, fun _ => rfl⟩

/-- Settles O12: an empty list is canonical, and the core runs after reset. -/
theorem resetMeetsInv : Obligations.ResetMeetsInv :=
  ⟨Memory.wf_nil, .inl rfl⟩

/-! ## Load -/

theorem State.load_of_le {image : List Byte} (h : image.length ≤ 256) (s : State) :
    s.load image = .next { s with mem := s.mem.writeAll Config.loadBase image } :=
  if_pos h

theorem State.load_of_gt {image : List Byte} (h : 256 < image.length) (s : State) :
    s.load image = .refused .imageTooLong :=
  if_neg h.not_ge

/-- A loaded image stands in memory from address 0 on, and every cell behind it keeps its byte (R142). -/
theorem Memory.read_writeAll_loadBase (m : Memory) {image : List Byte} (h : image.length ≤ 256) (b : Byte) :
    (m.writeAll Config.loadBase image).read b = image.getD b.toNat (m.read b) := by
  simpa using Memory.read_writeAll image m 0 (by omega) b

theorem Memory.read_writeAll_getElem? (m : Memory) {image : List Byte} (h : image.length ≤ 256) {k : Nat} {v : Byte}
    (hv : image[k]? = some v) : (m.writeAll Config.loadBase image).read (BitVec.ofNat 8 k) = v := by
  have hk : k < image.length := (List.getElem?_eq_some_iff.1 hv).1
  rw [Memory.read_writeAll_loadBase m h, BitVec.toNat_ofNat, Nat.mod_eq_of_lt (by omega), List.getD_eq_getElem?_getD, hv,
    Option.getD_some]

/-- Settles O15: the bytes are those of `Memory.read_writeAll_loadBase`; load touches memory alone. -/
theorem loadWritesTheImageFromZero : Obligations.LoadWritesTheImageFromZero := by
  refine ⟨fun s image hlen => ⟨_, s.load_of_le hlen, fun k hk => ?_, fun b hb => ?_, fun _ _ => rfl, rfl, rfl,
    ⟨rfl, rfl, rfl⟩, fun h => Memory.wf_writeAll h _ _⟩, fun s image hlen => s.load_of_gt hlen⟩
  · exact Memory.read_writeAll_getElem? s.mem hlen (List.getElem?_eq_getElem hk)
  · rw [Memory.read_writeAll_loadBase s.mem hlen, List.getD_eq_default _ _ hb]

/-! ## The fetch of a loaded instruction -/

/-- The core fetches and decodes an instruction wherever the bytes from pc on are those of its encoding. -/
theorem fetchDecode_of_reads {s : State} {i : Instr}
    (h : ∀ k v, (encode i)[k]? = some v → s.mem.read (s.pc + BitVec.ofNat 8 k) = v) : s.fetchDecode = .ok i := by
  have hd := decode_of_encode_getElem? (f := fun k => s.mem.read (s.pc + BitVec.ofNat 8 k)) h
  rwa [BitVec.add_zero] at hd

/-- Byte `k` of an instruction is byte `off + k` of the image, `off` the length of what stands before it. -/
theorem getElem?_encodeAll {before after : List Instr} {i : Instr} {k : Nat} {v : Byte} (hv : (encode i)[k]? = some v) :
    (encodeAll (before ++ i :: after))[(encodeAll before).length + k]? = some v := by
  have hk : k < (encode i).length := (List.getElem?_eq_some_iff.1 hv).1
  rw [encodeAll_append, List.getElem?_append_right (Nat.le_add_right _ _), Nat.add_sub_cancel_left, encodeAll,
    List.getElem?_append_left hk, hv]

/-- Settles O4: byte `k` of the instruction stands at its address plus `k`, which the length of the image keeps below 256. -/
theorem loadedProgramIsFetched : Obligations.LoadedProgramIsFetched := by
  intro before after i s t hlen hload hpc
  rw [s.load_of_le hlen] at hload
  obtain rfl := Host.Outcome.next.inj hload
  refine fetchDecode_of_reads fun k v hv => ?_
  rw [hpc, ← BitVec.ofNat_add]
  exact Memory.read_writeAll_getElem? s.mem hlen (getElem?_encodeAll hv)

end Sys2Proof.Machine
end

section
/-! PROOFS. 40_fetch_decode_dispatch.md and 60_exceptions.md: every step answers a state, a running core executes what it
fetches (R70 to R72), and a stopped core stays as it is (R126, R127). -/

namespace Sys2Proof.Machine

/-! ## Every step answers a state -/

theorem exec_next (i : Instr) (s : State) : ∃ t, exec i s = .next t := by
  cases i with
  | add | mul | cmp => exact withRegs_next _ _ _ _
  | hlt | ret => exact ⟨_, rfl⟩
  | ldi | prn | psh | pop | call | jmp => exact withReg_next _ _ _
  | jeq opa =>
    simp only [exec, execJeq]
    split
    · exact withReg_next _ _ _
    · exact ⟨_, rfl⟩
  | jne opa =>
    simp only [exec, execJne]
    split
    · exact withReg_next _ _ _
    · exact ⟨_, rfl⟩

theorem step_next (s : State) : ∃ t, step s = .next t := by
  cases hs : s.stopped with
  | true => exact ⟨s, step_of_stopped hs⟩
  | false =>
    cases hd : s.fetchDecode with
    | ok i =>
      rw [step_of_decode hs hd]
      exact exec_next i s
    | error e => exact ⟨_, step_of_illegal hs hd⟩

/-- Settles O6: no arm of the step or of the dispatch ends in a fault or a refusal. -/
theorem everyStepAnswersAState : Obligations.EveryStepAnswersAState :=
  ⟨step_next, exec_next⟩

/-! ## A running core executes what it fetches -/

/-- Settles O5: the three bytes are those of `State.fetchDecode`. -/
theorem stepRunsDecodedInstruction : Obligations.StepRunsDecodedInstruction :=
  fun s _ hrun hfault hd => step_of_decode (s.stopped_eq_false.2 ⟨hrun, hfault⟩) hd

theorem step_of_decode_at_FE {s : State} {i : Instr} (hrun : s.running = true) (hfault : s.fault = .none)
    (hpc : s.pc = 0xFE) (hd : decode (s.mem.read 0xFE) (s.mem.read 0xFF) (s.mem.read 0x00) = .ok i) :
    step s = exec i s :=
  stepRunsDecodedInstruction s i hrun hfault (by rw [hpc]; exact hd)

theorem step_of_decode_at_FF {s : State} {i : Instr} (hrun : s.running = true) (hfault : s.fault = .none)
    (hpc : s.pc = 0xFF) (hd : decode (s.mem.read 0xFF) (s.mem.read 0x00) (s.mem.read 0x01) = .ok i) :
    step s = exec i s :=
  stepRunsDecodedInstruction s i hrun hfault (by rw [hpc]; exact hd)

/-- Settles O10: at 0xFE and 0xFF the later addresses of the fetch are modulo 256; LDI and PRN then have their effect. -/
theorem fetchWrapsAtTheTopOfMemory : Obligations.FetchWrapsAtTheTopOfMemory := by
  refine ⟨fun s i => step_of_decode_at_FE, fun s i => step_of_decode_at_FF, fun s r hrun hfault hpc hop harg => ?_,
    fun s r hrun hfault hpc hop harg => ?_, fun s r hrun hfault hpc hop harg => ?_⟩
  · have hstep := step_of_decode_at_FE hrun hfault hpc (by rw [hop, harg]; exact decode_ldi _ _)
    exact ⟨_, hstep.trans (exec_of_effect (.ldi r _ s)), ldiEffect_reg_same s r _, congrArg (· + 3) hpc⟩
  · have hstep := step_of_decode_at_FF hrun hfault hpc (by rw [hop, harg]; exact decode_ldi _ _)
    exact ⟨_, hstep.trans (exec_of_effect (.ldi r _ s)), ldiEffect_reg_same s r _, congrArg (· + 3) hpc⟩
  · have hstep := step_of_decode_at_FF hrun hfault hpc (by rw [hop, harg]; exact decode_prn _ _)
    exact ⟨_, hstep.trans (exec_of_effect (.prn r s)), rfl, congrArg (· + 2) hpc⟩

/-! ## Runs -/

theorem runSteps_of_stopped {s : State} (h : s.stopped = true) (k : Nat) : runSteps k s = .next s := by
  induction k with
  | zero => rfl
  | succ k ih => rw [runSteps_succ (step_of_stopped h), ih]

theorem runSteps_add {j : Nat} {s t : State} (h : runSteps j s = .next t) (m : Nat) :
    runSteps (j + m) s = runSteps m t := by
  induction j generalizing s with
  | zero => rw [Host.Outcome.next.inj h, Nat.zero_add]
  | succ j ih =>
    obtain ⟨u, hu⟩ := step_next s
    rw [runSteps_succ hu] at h
    rw [Nat.succ_add, runSteps_succ hu, ih h]

/-- What holds of a state and itself, and of two states when it holds after a step of the first, holds of the two ends of
every run. -/
theorem runSteps_induction {R : State → State → Prop} (refl : ∀ s, R s s)
    (cons : ∀ {s t u}, step s = .next t → R t u → R s u) {k : Nat} {s u : State} (h : runSteps k s = .next u) : R s u := by
  induction k generalizing s with
  | zero => exact Host.Outcome.next.inj h ▸ refl s
  | succ k ih =>
    obtain ⟨t, ht⟩ := step_next s
    rw [runSteps_succ ht] at h
    exact cons ht (ih h)

/-- Settles O7: each of the steps answers the same state. -/
theorem haltedAndFaultedAreAbsorbing : Obligations.HaltedAndFaultedAreAbsorbing :=
  fun k s h => runSteps_of_stopped (s.stopped_eq_true.2 h) k

/-- Settles O8: a run that reaches a faulted state ends in it, and a halted state is not faulted. -/
theorem cleanEndMeansNoFatalError : Obligations.CleanEndMeansNoFatalError := by
  rintro k s t hrun ⟨-, hclean⟩ j hj u hu hfaulted
  obtain ⟨m, rfl⟩ := Nat.exists_eq_add_of_le hj
  have hend : runSteps (j + m) s = .next u :=
    (runSteps_add hu m).trans (haltedAndFaultedAreAbsorbing m u (.inr hfaulted))
  obtain rfl := Host.Outcome.next.inj (hrun.symm.trans hend)
  exact hfaulted hclean

end Sys2Proof.Machine
end

section
/-! PROOFS. 42_system_and_move.md, 43_stack.md and 44_control_transfer.md: PRN (R93), CALL (R111) and JNE (R115), each with
its whole frame, and the stack at the ends of memory (R38, R147). -/

namespace Sys2Proof.Machine

/-! ## PRN -/

/-- PRN writes the output and pc alone. -/
theorem prnEffect_frame (a : Reg) (s : State) :
    SameRegsExcept [] s (prnEffect a s) ∧ (prnEffect a s).pc = s.pc + 2 ∧ (prnEffect a s).fl = s.fl ∧
      (prnEffect a s).running = s.running ∧ (prnEffect a s).fault = s.fault ∧ SameMem s (prnEffect a s) :=
  ⟨fun _ _ => rfl, rfl, rfl, rfl, rfl, fun _ => rfl⟩

theorem prnEffect_out (a : Reg) (s : State) : (prnEffect a s).out = s.out ++ [s.reg a] := rfl

/-- Settles O21: PRN's effect appends the register, which after an LDI holds the immediate; `withReg_bad` gives the fatal
error. -/
theorem prnOutputsTheRegister : Obligations.PrnOutputsTheRegister := by
  refine ⟨decode_prn, fun a s => ⟨prnEffect a s, exec_of_effect (.prn a s), prnEffect_out a s, prnEffect_frame a s⟩,
    fun _ s h => withReg_bad h s fun a => prnEffect a s,
    fun a v s => ⟨ldiEffect a v s, prnEffect a (ldiEffect a v s), exec_of_effect (.ldi a v s), exec_of_effect (.prn a _), ?_⟩⟩
  rw [prnEffect_out, ldiEffect_reg_same]
  rfl

/-! ## CALL -/

/-- The target is read after the decrement (R111 b). -/
theorem callEffect_pc (a : Reg) (s : State) : (callEffect a s).pc = if a = 7 then s.reg 7 - 1 else s.reg a :=
  s.decSp_reg a

/-- Apart from its memory cell CALL writes x[7] and pc alone. -/
theorem callEffect_frame (a : Reg) (s : State) :
    SameRegsExcept [7] s (callEffect a s) ∧ (callEffect a s).fl = s.fl ∧ SameStatus s (callEffect a s) :=
  ⟨fun _ hr => s.setReg_reg_other (List.ne_of_not_mem_cons hr) _, rfl, ⟨rfl, rfl, rfl⟩⟩

/-- Settles O27: CALL's effect is the decrement, one memory write there of the return address, and the jump; `withReg_bad`
gives the fatal error. -/
theorem callPushesTheReturnAddress : Obligations.CallPushesTheReturnAddress := by
  refine ⟨decode_call, fun a s => ⟨callEffect a s, exec_of_effect (.call a s), callEffect_reg_sp s a, ?_, callEffect_pc a s,
    callEffect_frame a s⟩, fun _ s h => withReg_bad h s fun a => callEffect a s⟩
  rintro top htop
  obtain rfl : s.reg 7 - 1 = top := s.decSp_reg_sp.symm.trans htop
  rw [SameMemExcept, callEffect_mem, Memory.read_write_same]
  exact ⟨rfl, rfl, fun b hb => Memory.read_write_other _ hb _⟩

/-! ## JNE -/

theorem jeqTaken_eq_false_iff {f : Flag} : jeqTaken f = false ↔ f ≠ .equal := by
  rw [← Bool.not_eq_true, jeqTaken_iff]

theorem jneTaken_eq_false_iff {f : Flag} : jneTaken f = false ↔ f = .equal := by
  rw [← Bool.not_eq_true, jneTaken_iff, not_not]

/-- JNE on GREATER or LESS is JMP, its index check included. -/
theorem exec_jne_of_ne_equal {s : State} (h : s.fl ≠ .equal) (opa : Byte) : exec (.jne opa) s = exec (.jmp opa) s :=
  if_pos ((jneTaken_iff s.fl).2 h)

theorem Flag.ne_equal_iff (f : Flag) : f ≠ .equal ↔ f = .greater ∨ f = .less := by
  cases f <;> simp

/-- Settles O32: on GREATER or LESS it is JMP; on EQUAL it falls through before the operand is looked at. -/
theorem jneJumpsIffNotEqual : Obligations.JneJumpsIffNotEqual := by
  obtain ⟨-, hjmp, hbad⟩ := jmpGoesToTheRegister
  refine ⟨decode_jne, fun a s hne => ?_, fun opa s hne h => ?_, fun opa s heq => ?_⟩
  · rw [exec_jne_of_ne_equal (s.fl.ne_equal_iff.2 hne)]
    exact hjmp a s
  · rw [exec_jne_of_ne_equal (s.fl.ne_equal_iff.2 hne)]
    exact hbad opa s h
  · exact ⟨fallThrough s, exec_of_effect (.jneNot opa s (jneTaken_eq_false_iff.2 heq)), rfl, s.jump_frame (s.pc + 2)⟩

/-! ## The stack at the ends of memory -/

/-- Settles O25: 0x00 - 1 is 0xFF and 0xFF + 1 is 0x00 in the registers and addresses of the four effects. -/
theorem stackPointerWrapsModulo256 : Obligations.StackPointerWrapsModulo256 := by
  have hdec : (0x00 : Byte) - 1 = 0xFF := by decide
  have hinc : (0xFF : Byte) + 1 = 0x00 := by decide
  refine ⟨fun a s hsp => ⟨pshEffect a s, callEffect a s, exec_of_effect (.psh a s), ?_, ?_, exec_of_effect (.call a s),
    ?_, ?_⟩, fun a s ha hsp => ⟨popEffect a s, retEffect s, exec_of_effect (.pop a s), ?_, ?_, exec_of_effect (.ret s),
    ?_, ?_⟩⟩
  · rw [pshEffect_reg_sp, hsp, hdec]
  · rw [pshEffect_mem, State.decSp_reg, hsp, hdec, Memory.read_write_same]
  · rw [callEffect_reg_sp, hsp, hdec]
  · rw [callEffect_mem, hsp, hdec, Memory.read_write_same]
  · rw [popEffect_reg_sp s ha, hsp, hinc]
  · rw [popEffect_reg_same, if_neg ha, hsp]
  · rw [retEffect_reg_sp, hsp, hinc]
  · rw [retEffect_pc, hsp]

end Sys2Proof.Machine
end

section
/-! PROOFS. 60_exceptions.md and 10_state.md: when REG_INDEX is raised (R124), that a fatal error writes nothing but the fault
register (R121), and that the register is sticky and unread (R20). -/

namespace Sys2Proof.Machine

/-! ## REG_INDEX -/

theorem eq_of_effect {i : Instr} {s t u : State} (he : Effect i s u) (h : exec i s = .next t) : t = u :=
  Host.Outcome.next.inj (h.symm.trans (exec_of_effect he))

/-- `i` reaches its register operands under the flag `f`: a JEQ or a JNE does so only when it is taken (R114, R115). -/
def ReachesOperands (i : Instr) (f : Flag) : Prop :=
  (∀ b, i = .jeq b → f = .equal) ∧ ∀ b, i = .jne b → f ≠ .equal

/-- An instruction that reaches its register operands and has its effect names registers in all of them. -/
theorem Effect.operands_le {i : Instr} {s t : State} (h : Effect i s t) (hreach : ReachesOperands i s.fl) :
    ∀ b ∈ i.registerOperands, b.toNat ≤ 7 := by
  have hreg : ∀ r : Reg, (regByte r).toNat ≤ 7 := fun r => (regByte_toNat r).trans_le (Nat.le_of_lt_succ r.isLt)
  obtain ⟨hjeq, hjne⟩ := hreach
  cases h with
  | jeqNot opa _ hnot => exact absurd (hjeq opa rfl) (jeqTaken_eq_false_iff.1 hnot)
  | jneNot opa _ hnot => exact absurd (jneTaken_eq_false_iff.1 hnot) (hjne opa rfl)
  | _ => simp [Instr.registerOperands, hreg]

/-- What does not reach its register operands is a jump that falls through. -/
theorem effect_fallThrough {i : Instr} {s : State} (h : ¬ ReachesOperands i s.fl) : Effect i s (fallThrough s) := by
  by_contra hno
  refine h ⟨?_, ?_⟩
  · rintro b rfl
    by_contra hne
    exact hno (.jeqNot b s (jeqTaken_eq_false_iff.2 hne))
  · rintro b rfl heq
    exact hno (.jneNot b s (jneTaken_eq_false_iff.2 heq))

/-- Settles O35: an instruction has its effect, for which it names registers in all operands it reaches, or raises, for which
an operand is out of range and reached. -/
theorem regIndexRaisedExactly : Obligations.RegIndexRaisedExactly := by
  intro i s t hfault h
  rcases exec_cases h with he | ⟨rfl, hbad⟩
  · have hnone : t.fault = .none := he.fault_eq.trans hfault
    refine iff_of_false (by simp [hnone]) ?_
    rintro ⟨⟨b, hb, hgt⟩, hreach⟩
    exact absurd (he.operands_le hreach b hb) hgt.not_ge
  · refine iff_of_true rfl ⟨hbad, ?_⟩
    by_contra hnot
    have hsame : .regIndex = s.fault := congrArg State.fault (eq_of_effect (effect_fallThrough hnot) h)
    simp [hfault] at hsame

theorem wellFormed_iff {i : Instr} : i.wellFormed = true ↔ ∀ b ∈ i.registerOperands, b.toNat < 8 := by
  simp [Instr.wellFormed]

/-- Settles O36: REG_INDEX needs a register operand that names no register. -/
theorem wellFormedInstructionsRaiseNothing : Obligations.WellFormedInstructionsRaiseNothing := by
  intro i s hwf
  obtain ⟨t, ht⟩ := exec_next i s
  refine ⟨t, ht, ?_⟩
  rcases exec_cases ht with he | ⟨-, b, hb, hgt⟩
  · exact he.fault_eq
  · exact absurd (wellFormed_iff.1 hwf b hb) (Nat.not_lt.2 hgt)

/-! ## The fault register -/

/-- Settles O37: a running core's step has an effect, which raises nothing, or is `State.raise`. -/
theorem fatalErrorsArePrecise : Obligations.FatalErrorsArePrecise := by
  intro s t hrun hfault h ht
  rcases step_cases h with ⟨-, rfl⟩ | ⟨-, i, -, he | rfl⟩ | ⟨-, e, -, rfl⟩
  · exact absurd hfault ht
  · exact absurd (he.fault_eq.trans hfault) ht
  · exact ⟨rfl, rfl, hrun, rfl⟩
  · exact ⟨rfl, rfl, hrun, rfl⟩

/-- No instruction reads the fault register (R20). -/
theorem exec_withFault {i : Instr} {s t : State} (e : FaultCause) (h : exec i s = .next t) :
    ∃ u, exec i { s with fault := e } = .next u ∧ { u with fault := t.fault } = t := by
  obtain ⟨u, hu, hw⟩ := exec_sameWrites (b := s.running) (e := e) (o := s.out) (fun _ _ => .rfl) h
  exact ⟨u, hu, State.ext_reg hw.reg_eq hw.pc hw.fl.eq hw.running.eq rfl hw.mem (hw.out_eq rfl)⟩

/-- Settles O38: a faulted core is stopped, and `exec_withFault` replaces the register. -/
theorem faultIsStickyAndUnread : Obligations.FaultIsStickyAndUnread := by
  refine ⟨fun s t hs h => ?_, ⟨rfl, rfl, rfl, rfl⟩, fun i s t e h => exec_withFault e h⟩
  rw [step_of_stopped (s.stopped_eq_true.2 (.inr hs))] at h
  exact Host.Outcome.next.inj h ▸ rfl

end Sys2Proof.Machine
end

section
/-! PROOFS. Whole-machine rules: where pc goes (R70 to R77), what memory (R26, R31, R43, R44, R147) and the output (R22) can
become, the invariant every step keeps (R127), and that no program tells GREATER from LESS (R115). -/

namespace Sys2Proof.Machine

/-! ## Memory -/

/-- Only PSH and CALL write memory, and only the cell below the one x[7] addresses (R26, R31). -/
theorem Effect.mem_eq_or_write {i : Instr} {s t : State} (h : Effect i s t) :
    t.mem = s.mem ∨
      (i.opcode = Opcode.psh ∨ i.opcode = Opcode.call) ∧ ∃ v, t.mem = s.mem.write (s.reg 7 - 1) v := by
  cases h with
  | psh a => exact .inr ⟨.inl rfl, _, pshEffect_mem s a⟩
  | call a => exact .inr ⟨.inr rfl, _, callEffect_mem s a⟩
  | _ => exact .inl rfl

theorem Effect.read_eq_of_ne {i : Instr} {s t : State} (h : Effect i s t) {b : Byte} (hb : b ≠ s.reg 7 - 1) :
    t.mem.read b = s.mem.read b := by
  rcases h.mem_eq_or_write with hmem | ⟨-, v, hmem⟩
  · rw [hmem]
  · rw [hmem, Memory.read_write_other _ hb]

theorem Effect.mem_wf {i : Instr} {s t : State} (h : Effect i s t) (hwf : s.mem.wf) : t.mem.wf := by
  rcases h.mem_eq_or_write with hmem | ⟨-, v, hmem⟩
  · exact hmem ▸ hwf
  · exact hmem ▸ Memory.wf_write hwf _ v

/-- Settles O13: an effect keeps the canonical form and raises nothing; a fatal error writes no memory and leaves the core
running. -/
theorem everyStepKeepsInv : Obligations.EveryStepKeepsInv := by
  rintro s t ⟨hwf, hone⟩ h
  rcases step_cases h with ⟨-, rfl⟩ | ⟨hs, i, -, he | rfl⟩ | ⟨hs, e, -, rfl⟩
  · exact ⟨hwf, hone⟩
  · obtain ⟨-, hfault⟩ := s.stopped_eq_false.1 hs
    exact ⟨he.mem_wf hwf, .inr (he.fault_eq.trans hfault)⟩
  · obtain ⟨hrun, -⟩ := s.stopped_eq_false.1 hs
    exact ⟨hwf, .inl hrun⟩
  · obtain ⟨hrun, -⟩ := s.stopped_eq_false.1 hs
    exact ⟨hwf, .inl hrun⟩

/-- Settles O42: a fatal error and a stopped core write no memory, and an effect only what `Effect.mem_eq_or_write` says. -/
theorem memoryWrittenOnlyByPshAndCall : Obligations.MemoryWrittenOnlyByPshAndCall := by
  intro s t b h hne
  rcases step_cases h with ⟨-, rfl⟩ | ⟨-, i, hd, he | rfl⟩ | ⟨-, e, -, rfl⟩
  · exact absurd rfl hne
  · have hb : b = s.reg 7 - 1 := by
      by_contra hb
      exact hne (he.read_eq_of_ne hb)
    rcases he.mem_eq_or_write with hmem | ⟨hop, -⟩
    · exact absurd (congrArg (Memory.read · b) hmem) hne
    · rw [opcode_of_fetchDecode hd]
      exact ⟨hb, hop⟩
  · exact absurd rfl hne
  · exact absurd rfl hne

/-- Settles O26: the one cell written lies at or above the end of the image. -/
theorem pushKeepsClearOfTheImage : Obligations.PushKeepsClearOfTheImage := by
  intro len depth s t a hclear hsp h b hb
  have hroom : len + (depth + 1) ≤ 244 := hclear
  have hne : b ≠ s.reg 7 - 1 := by bv_omega
  have hread {u : State} {i : Instr} (he : Effect i s u) (h : exec i s = .next t) : t.mem.read b = s.mem.read b :=
    eq_of_effect he h ▸ he.read_eq_of_ne hne
  rcases h with h | h
  · exact hread (.psh a s) h
  · exact hread (.call a s) h

/-- A fetch reads the three cells from pc on. -/
theorem fetch_eq_of_read {s : State} {pc : Byte} {f : Byte → Byte} (hpc : s.pc = pc) (hread : ∀ b, s.mem.read b = f b) :
    s.fetch = (f pc, f (pc + 1), f (pc + 2)) := by
  simp only [State.fetch, hpc, hread]

/-- Settles O44: the effect is that of the instruction as fetched, and its one memory write answers every later read. -/
theorem storedByteIsFetchedNext : Obligations.StoredByteIsFetchedNext := by
  refine ⟨fun s a hrun hfault hop harg => ?_, fun s a hrun hfault hop harg => ?_⟩
  · intro after
    have hdecode : decode (s.mem.read s.pc) (s.mem.read (s.pc + 1)) (s.mem.read (s.pc + 2)) = .ok (.psh (regByte a)) := by
      rw [hop, harg]
      exact decode_psh _ _
    have hread : ∀ b, (pshEffect a s).mem.read b = after b := fun b => by
      rw [pshEffect_mem, Memory.read_write, State.decSp_reg]
    refine ⟨pshEffect a s, ?_, rfl, ?_, hread⟩
    · exact (stepRunsDecodedInstruction s _ hrun hfault hdecode).trans (exec_of_effect (.psh a s))
    · rw [fetch_eq_of_read (pc := s.pc + 2) rfl hread, BitVec.add_assoc, BitVec.add_assoc]
      rfl
  · intro after target
    have hdecode : decode (s.mem.read s.pc) (s.mem.read (s.pc + 1)) (s.mem.read (s.pc + 2)) = .ok (.call (regByte a)) := by
      rw [hop, harg]
      exact decode_call _ _
    have hread : ∀ b, (callEffect a s).mem.read b = after b := fun b => by
      rw [callEffect_mem, Memory.read_write]
    refine ⟨callEffect a s, ?_, callEffect_pc a s, fetch_eq_of_read (callEffect_pc a s) hread, hread⟩
    exact (stepRunsDecodedInstruction s _ hrun hfault hdecode).trans (exec_of_effect (.call a s))

/-! ## The program counter -/

/-- The number of an instruction's bytes, from its opcode byte taken as a number (R51, R52). -/
theorem encode_length_eq (i : Instr) : (encode i).length = 1 + i.opcode.toNat / 64 := by
  have hcount : operandCount i.opcode = i.opcode.toNat / 64 := by simp [operandCount, Nat.shiftRight_eq_div_pow]
  rw [← hcount, ← operands_length_eq, Nat.add_comm]
  rfl

/-- What transfers no control advances pc by the number of the instruction's bytes (R73). -/
theorem Effect.pc_eq_advance {i : Instr} {s t : State} (h : Effect i s t) (hjmp : ∀ b, i ≠ .jmp b)
    (hcall : ∀ b, i ≠ .call b) (hret : i ≠ .ret) (hjeq : ∀ b, i = .jeq b → s.fl ≠ .equal)
    (hjne : ∀ b, i = .jne b → s.fl = .equal) : t.pc = s.pc + BitVec.ofNat 8 (encode i).length := by
  cases h with
  | jmp a => exact absurd rfl (hjmp (regByte a))
  | call a => exact absurd rfl (hcall (regByte a))
  | ret => exact absurd rfl hret
  | jeqTaken a _ htaken => exact absurd ((jeqTaken_iff _).1 htaken) (hjeq _ rfl)
  | jneTaken a _ htaken => exact absurd (hjne _ rfl) ((jneTaken_iff _).1 htaken)
  | _ => rfl

/-- Settles O9: a transfer's effect is known by its operand and the flag; every other effect advances pc. -/
theorem pcTakesTargetOrNetDisplacement : Obligations.PcTakesTargetOrNetDisplacement := by
  intro s t i hrun hfault hd h hnone
  have hexec : exec i s = .next t := (stepRunsDecodedInstruction s i hrun hfault hd).symm.trans h
  refine ⟨?_, ?_, ?_, ?_, ?_, fun hjmp hcall hret hjeq hjne => ?_⟩
  · rintro r rfl
    rw [eq_of_effect (.jmp r s) hexec]
    rfl
  · rintro r rfl
    rw [eq_of_effect (.call r s) hexec, callEffect_pc]
  · rintro rfl
    rw [eq_of_effect (.ret s) hexec, retEffect_pc]
  · rintro r rfl heq
    rw [eq_of_effect (.jeqTaken r s ((jeqTaken_iff _).2 heq)) hexec]
    rfl
  · rintro r rfl hne
    rw [eq_of_effect (.jneTaken r s ((jneTaken_iff _).2 hne)) hexec]
    rfl
  · rcases exec_cases hexec with he | ⟨rfl, -⟩
    · rw [he.pc_eq_advance hjmp hcall hret hjeq hjne, encode_length_eq, opcode_of_decode hd]
    · cases hnone

/-! ## The output -/

/-- Only PRN writes the output: it appends the register it names (R22). -/
theorem Effect.out_eq_or_prn {i : Instr} {s t : State} (h : Effect i s t) :
    t.out = s.out ∨ ∃ a, i = .prn (regByte a) ∧ t.out = s.out ++ [s.reg a] := by
  cases h with
  | prn a => exact .inr ⟨a, rfl, prnEffect_out a s⟩
  | _ => exact .inl rfl

theorem step_out_eq_or_prn {s t : State} (h : step s = .next t) :
    t.out = s.out ∨ ∃ a, s.fetchDecode = .ok (.prn (regByte a)) ∧ t.out = s.out ++ [s.reg a] := by
  rcases step_cases h with ⟨-, rfl⟩ | ⟨-, i, hd, he | rfl⟩ | ⟨-, e, -, rfl⟩
  · exact .inl rfl
  · rcases he.out_eq_or_prn with hout | ⟨a, rfl, hout⟩
    · exact .inl hout
    · exact .inr ⟨a, hd, hout⟩
  · exact .inl rfl
  · exact .inl rfl

theorem out_isPrefix_of_step {s t : State} (h : step s = .next t) : s.out <+: t.out := by
  rcases step_out_eq_or_prn h with hout | ⟨a, -, hout⟩
  · rw [hout]
  · exact ⟨_, hout.symm⟩

/-- The fetched bytes of a PRN (R93). -/
theorem reads_of_fetchDecode_prn {s : State} {b : Byte} (h : s.fetchDecode = .ok (.prn b)) :
    s.mem.read s.pc = Opcode.prn ∧ s.mem.read (s.pc + 1) = b := by
  obtain ⟨hop, hargs⟩ := decode_eq_ok_iff.1 (show decode _ _ _ = .ok (.prn b) from h)
  exact ⟨hop.symm, (List.cons_prefix_cons.1 hargs).1.symm⟩

/-- No instruction reads the output (R22). -/
theorem exec_withOut {i : Instr} {s t : State} (o : List Byte) (h : exec i s = .next t) :
    ∃ u, exec i { s with out := o } = .next u ∧ { u with out := t.out } = t := by
  obtain ⟨u, hu, hw⟩ := exec_sameWrites (b := s.running) (e := s.fault) (o := o) (fun _ _ => .rfl) h
  exact ⟨u, hu, State.ext_reg hw.reg_eq hw.pc hw.fl.eq hw.running.eq hw.fault.eq hw.mem rfl⟩

/-- Settles O43: a step appends what PRN appends or nothing, runs by induction on their steps, and `exec_withOut` replaces the
output. -/
theorem outputOnlyGrowsByPrn : Obligations.OutputOnlyGrowsByPrn := by
  refine ⟨fun s t h => (step_out_eq_or_prn h).imp_right ?_, fun k s t h => ?_, fun i s t o h => exec_withOut o h⟩
  · rintro ⟨a, hd, hout⟩
    obtain ⟨hop, harg⟩ := reads_of_fetchDecode_prn hd
    exact ⟨hop, a, harg, hout⟩
  · exact runSteps_induction (R := fun s t => s.out <+: t.out) (fun s => List.prefix_rfl)
      (fun hstep hrest => (out_isPrefix_of_step hstep).trans hrest) h

/-! ## GREATER and LESS -/

/-- Two runs that differ only in the flag, and agree on whether it is EQUAL, still do after an instruction. -/
theorem exec_withFlag_alike {i : Instr} {s t : State} {f : Flag} (hf : s.fl = .equal ↔ f = .equal)
    (h : exec i s = .next t) :
    ∃ g, exec i { s with fl := f } = .next { t with fl := g } ∧ (t.fl = .equal ↔ g = .equal) := by
  obtain ⟨u, hu, hw⟩ := exec_sameWrites (f := f) (b := s.running) (e := s.fault) (o := s.out) (fun _ _ => hf) h
  have hut : u = { t with fl := u.fl } :=
    State.ext_reg hw.reg_eq hw.pc rfl hw.running.eq hw.fault.eq hw.mem (hw.out_eq rfl)
  refine ⟨u.fl, hut ▸ hu, ?_⟩
  rcases hw.fl with hwritten | ⟨hkept, hkept'⟩
  · rw [hwritten]
  · rw [hkept, hkept']
    exact hf

theorem step_withFlag_alike {s t : State} {f : Flag} (hf : s.fl = .equal ↔ f = .equal) (h : step s = .next t) :
    ∃ g, step { s with fl := f } = .next { t with fl := g } ∧ (t.fl = .equal ↔ g = .equal) := by
  cases hs : s.stopped with
  | true =>
    rw [step_of_stopped hs] at h
    obtain rfl := Host.Outcome.next.inj h
    exact ⟨f, step_of_stopped hs, hf⟩
  | false =>
    cases hd : s.fetchDecode with
    | ok i =>
      rw [step_of_decode hs hd] at h
      rw [step_of_decode (s := { s with fl := f }) hs hd]
      exact exec_withFlag_alike hf h
    | error e =>
      rw [step_of_illegal hs hd] at h
      obtain rfl := Host.Outcome.next.inj h
      exact ⟨f, step_of_illegal hs hd, hf⟩

theorem runSteps_withFlag_alike {k : Nat} {s t : State} {f : Flag} (hf : s.fl = .equal ↔ f = .equal)
    (h : runSteps k s = .next t) :
    ∃ g, runSteps k { s with fl := f } = .next { t with fl := g } ∧ (t.fl = .equal ↔ g = .equal) := by
  induction k generalizing s f with
  | zero =>
    obtain rfl := Host.Outcome.next.inj h
    exact ⟨f, rfl, hf⟩
  | succ k ih =>
    obtain ⟨s₁, hstep⟩ := step_next s
    obtain ⟨f₁, hstep', hf₁⟩ := step_withFlag_alike hf hstep
    rw [runSteps_succ hstep] at h
    rw [runSteps_succ hstep']
    exact ih hf₁ h

/-- Settles O40: neither flag being EQUAL, the two runs agree on whether it is, and every step keeps that. -/
theorem greaterAndLessAreIndistinguishable : Obligations.GreaterAndLessAreIndistinguishable := by
  intro k s t f hs hf h
  obtain ⟨g, hrun, hg⟩ := runSteps_withFlag_alike (iff_of_false hs hf) h
  exact ⟨{ t with fl := g }, hrun, rfl, hg.symm⟩

end Sys2Proof.Machine
end
